-- ==== Sys2Proof/Config.lean ====
section
/-! DEFINITION. The build parameters N and W of an engine and the constants derived from them
(00_scope.md R4, R5, R6). The spec leaves no value undefined, so there is no free value here. -/

namespace Sys2Proof

/-- The limb widths W an engine can be built with (00_scope.md R5; 92_eei_decisions.md D2). -/
inductive LimbWidth where
  | w8
  | w16
  | w32
  | w64
deriving DecidableEq, Repr

/-- W in bits. -/
def LimbWidth.bits : LimbWidth → Nat
  | .w8 => 8
  | .w16 => 16
  | .w32 => 32
  | .w64 => 64

/-- The parameters of one engine, fixed when it is built and never changed while it runs (R4, R5). -/
structure Config where
  /-- The bit width N. -/
  N : Nat
  /-- The limb width W. -/
  limb : LimbWidth
deriving DecidableEq, Repr

namespace Config

/-- `W` in bits (R5). -/
def W (c : Config) : Nat := c.limb.bits

/-- The bound on N: `1 <= N <= 4096 * W` (R4). -/
def ok (c : Config) : Bool := decide (0 < c.N) && decide (c.N ≤ 4096 * c.W)

/-- `L = ceil(N / W)`, the limb count (R6). -/
def L (c : Config) : Nat := (c.N + c.W - 1) / c.W

/-- `T = N - (L - 1) * W`, the valid bits of the top limb (R6). -/
def T (c : Config) : Nat := c.N - (c.L - 1) * c.W

/-- `LIMBMAX = 2^W - 1` (R6). -/
def limbMax (c : Config) : Nat := 2 ^ c.W - 1

/-- `TOPMASK = 2^T - 1` (R6). -/
def topMask (c : Config) : Nat := 2 ^ c.T - 1

/-- `MAXVAL = 2^N - 1` (R6). -/
def maxVal (c : Config) : Nat := 2 ^ c.N - 1

/-- The engine `State.reset` is an instance of: N = 256 and W = 32, the configuration of the spec's
worked examples (95_test_vectors.md section 1). DESIGN CHOICE, log 2 (unsafe for a claim about
`State.reset` read as one about every engine): the spec fixes neither number. -/
def ofReset : Config := ⟨256, .w32⟩

end Config

end Sys2Proof
end

