-- ==== Sys2Proof/Syntax.lean ====
section
/-! DEFINITION. The 20 commands as terms, one constructor per row of spec/opcode_table.json
(30_encoding.md R61, R64). A command's data-in value is not part of the word, so it is no operand
here: it is `State.din` (30_encoding.md R60). -/

namespace Sys2Proof

/-- A value register number: all 16 specifier values are legal (10_state.md R20). -/
abbrev VReg := Fin 16

/-- The native widths of LDN, LDNT and STN (40_construct_convert.md R94). -/
inductive NativeSize where
  | b8
  | b16
  | b32
  | b64
deriving DecidableEq, Repr

/-- A decoded command. -/
inductive Instr where
  /-- ADD vd, vs1, vs2 (41_addsub.md R111). -/
  | add (vd vs1 vs2 : VReg)
  /-- SUB vd, vs1, vs2 (41_addsub.md R113). -/
  | sub (vd vs1 vs2 : VReg)
  /-- MUL vd, vs1, vs2 (42_mul.md R130). -/
  | mul (vd vs1 vs2 : VReg)
  /-- DIV vd, vs1, vs2 (43_divmod.md R143). -/
  | div (vd vs1 vs2 : VReg)
  /-- MOD vd, vs1, vs2 (43_divmod.md R144). -/
  | mod (vd vs1 vs2 : VReg)
  /-- INC vd, vs1 (41_addsub.md R115). -/
  | inc (vd vs1 : VReg)
  /-- DEC vd, vs1 (41_addsub.md R116). -/
  | dec (vd vs1 : VReg)
  /-- CMP vs1, vs2 (44_compare.md R155). -/
  | cmp (vs1 vs2 : VReg)
  /-- AND vd, vs1, vs2 (45_bitwise.md R171). -/
  | and (vd vs1 vs2 : VReg)
  /-- OR vd, vs1, vs2 (45_bitwise.md R172). -/
  | or (vd vs1 vs2 : VReg)
  /-- XOR vd, vs1, vs2 (45_bitwise.md R173). -/
  | xor (vd vs1 vs2 : VReg)
  /-- NOT vd, vs1 (45_bitwise.md R174). -/
  | not (vd vs1 : VReg)
  /-- SHL vd, vs1, vs2 (45_bitwise.md R176). -/
  | shl (vd vs1 vs2 : VReg)
  /-- SHR vd, vs1, vs2 (45_bitwise.md R177). -/
  | shr (vd vs1 vs2 : VReg)
  /-- ZERO vd (40_construct_convert.md R90). -/
  | zero (vd : VReg)
  /-- LDN.w vd, #x (40_construct_convert.md R91). -/
  | ldn (vd : VReg) (sz : NativeSize)
  /-- LDNT.w vd, #x (40_construct_convert.md R92). -/
  | ldnt (vd : VReg) (sz : NativeSize)
  /-- STN.w vs1 (40_construct_convert.md R93). -/
  | stn (vs1 : VReg) (sz : NativeSize)
  /-- RDL vs1, idx (40_construct_convert.md R95). -/
  | rdl (vs1 : VReg) (idx : Fin 4096)
  /-- WRL vd, idx, #x (40_construct_convert.md R96). -/
  | wrl (vd : VReg) (idx : Fin 4096)
deriving DecidableEq, Repr

end Sys2Proof
end

