-- ==== Sys2Proof/WellFormed.lean ====
section
/-! DEFINITION. When a command term is one an engine of a given configuration has. Register numbers
and size selectors are legal by their types (10_state.md R20, 30_encoding.md R63), so one check is
left: the limb index of RDL and WRL is below L (30_encoding.md R67). -/

namespace Sys2Proof

/-- The command exists on an engine built with `c` (30_encoding.md R63, R67). -/
def Instr.wellFormed (c : Config) : Instr → Bool
  | .rdl _ idx => decide (idx.val < c.L)
  | .wrl _ idx => decide (idx.val < c.L)
  | .add _ _ _ => true
  | .sub _ _ _ => true
  | .mul _ _ _ => true
  | .div _ _ _ => true
  | .mod _ _ _ => true
  | .inc _ _ => true
  | .dec _ _ => true
  | .cmp _ _ => true
  | .and _ _ _ => true
  | .or _ _ _ => true
  | .xor _ _ _ => true
  | .not _ _ => true
  | .shl _ _ _ => true
  | .shr _ _ _ => true
  | .zero _ => true
  | .ldn _ _ => true
  | .ldnt _ _ => true
  | .stn _ _ => true

end Sys2Proof
end

