-- ==== Sys2Proof/Word.lean ====
section
/-! DEFINITION. The bit vectors the spec names: the command word, the data fields, the opcode byte. -/

namespace Sys2Proof

/-- A 32-bit command word (30_encoding.md R60). -/
abbrev Word := BitVec 32

/-- A data-in or data-out value, `DW = 64` bits (00_scope.md R7). -/
abbrev Data := BitVec 64

/-- An opcode, or its echo in a response (00_scope.md R8, 30_encoding.md R62). -/
abbrev Byte := BitVec 8

end Sys2Proof
end

