-- ==== Sys2Proof/Decode.lean ====
section
/-! DEFINITION. The command word: its fields, the decoder, total on every word, and the encoder
(30_encoding.md R60 to R67). -/

namespace Sys2Proof

/-! ### Fields (R62) -/

/-- `opc = word[31:24]`. -/
def opc (w : Word) : Byte := w.extractLsb 31 24

/-- `vd = word[23:20]`. -/
def fieldVd (w : Word) : VReg := (w.extractLsb 23 20).toFin

/-- `vs1 = word[19:16]`. -/
def fieldVs1 (w : Word) : VReg := (w.extractLsb 19 16).toFin

/-- `vs2 = word[15:12]`. -/
def fieldVs2 (w : Word) : VReg := (w.extractLsb 15 12).toFin

/-- `imm = word[11:0]`, the limb index of RDL and WRL. -/
def fieldImm (w : Word) : Fin 4096 := (w.extractLsb 11 0).toFin

/-- The size selector `sz = imm[1:0]`: 0, 1, 2, 3 for 8, 16, 32, 64 bits (R63). -/
def NativeSize.ofSel (sz : BitVec 2) : NativeSize :=
  if sz = 0 then .b8 else if sz = 1 then .b16 else if sz = 2 then .b32 else .b64

/-- The selector of a native width (R63). -/
def NativeSize.sel : NativeSize → BitVec 2
  | .b8 => 0
  | .b16 => 1
  | .b32 => 2
  | .b64 => 3

/-- `sz = word[1:0]` (R62, R63). -/
def fieldSz (w : Word) : NativeSize := NativeSize.ofSel (w.extractLsb 1 0)

/-! ### Formats (R61) -/

/-- The eight formats of R61. -/
inductive Format where
  | A | B | C | D | E | F | G | H
deriving DecidableEq, Repr

/-- A 1 at every bit the format fixes: the opcode and the must-be-zero fields (R61). -/
def Format.mask : Format → Word
  | .A => 0xFF000FFF
  | .B => 0xFF00FFFF
  | .C => 0xFFF00FFF
  | .D => 0xFF0FFFFF
  | .E => 0xFF0FFFFC
  | .F => 0xFFF0FFFC
  | .G => 0xFFF0F000
  | .H => 0xFF0FF000

/-- `match`: the opcode shifted to bits 31:24 and zero elsewhere (R61). -/
def matchWord (o : Byte) : Word := o ++ (0 : BitVec 24)

/-- `(word AND mask) = match` (R61, R67). -/
def Format.fits (f : Format) (o : Byte) (w : Word) : Bool := decide (w &&& f.mask = matchWord o)

/-! ### Decoder (R64 to R67) -/

/-- The opcode map: the format and the command a word of that opcode spells, were its must-be-zero
fields zero; none for an unassigned opcode (R64, R66). -/
def opcodeMap (w : Word) : Option (Format × Instr) :=
  match (opc w).toNat with
  | 0x01 => some (.A, .add (fieldVd w) (fieldVs1 w) (fieldVs2 w))
  | 0x02 => some (.A, .sub (fieldVd w) (fieldVs1 w) (fieldVs2 w))
  | 0x03 => some (.A, .mul (fieldVd w) (fieldVs1 w) (fieldVs2 w))
  | 0x04 => some (.A, .div (fieldVd w) (fieldVs1 w) (fieldVs2 w))
  | 0x05 => some (.A, .mod (fieldVd w) (fieldVs1 w) (fieldVs2 w))
  | 0x06 => some (.B, .inc (fieldVd w) (fieldVs1 w))
  | 0x07 => some (.B, .dec (fieldVd w) (fieldVs1 w))
  | 0x08 => some (.C, .cmp (fieldVs1 w) (fieldVs2 w))
  | 0x10 => some (.A, .and (fieldVd w) (fieldVs1 w) (fieldVs2 w))
  | 0x11 => some (.A, .or (fieldVd w) (fieldVs1 w) (fieldVs2 w))
  | 0x12 => some (.A, .xor (fieldVd w) (fieldVs1 w) (fieldVs2 w))
  | 0x13 => some (.B, .not (fieldVd w) (fieldVs1 w))
  | 0x14 => some (.A, .shl (fieldVd w) (fieldVs1 w) (fieldVs2 w))
  | 0x15 => some (.A, .shr (fieldVd w) (fieldVs1 w) (fieldVs2 w))
  | 0x20 => some (.D, .zero (fieldVd w))
  | 0x21 => some (.E, .ldn (fieldVd w) (fieldSz w))
  | 0x22 => some (.E, .ldnt (fieldVd w) (fieldSz w))
  | 0x23 => some (.F, .stn (fieldVs1 w) (fieldSz w))
  | 0x24 => some (.G, .rdl (fieldVs1 w) (fieldImm w))
  | 0x25 => some (.H, .wrl (fieldVd w) (fieldImm w))
  | _ => none

/-- The decoder of an engine built with `c`: none exactly for an illegal word (R65, R66, R67). -/
def decode (c : Config) (w : Word) : Option Instr :=
  match opcodeMap w with
  | none => none
  | some (f, i) => if f.fits (opc w) w && i.wellFormed c then some i else none

/-! ### Encoder (R61, R62, R64) -/

/-- `{opc, vd, vs1, vs2, imm}` (R62). -/
def pack (o : Byte) (vd vs1 vs2 : VReg) (imm : BitVec 12) : Word :=
  o ++ BitVec.ofFin (w := 4) vd ++ BitVec.ofFin (w := 4) vs1 ++ BitVec.ofFin (w := 4) vs2 ++ imm

/-- The opcode of a command (R64). -/
def Instr.opcode : Instr → Byte
  | .add _ _ _ => 0x01
  | .sub _ _ _ => 0x02
  | .mul _ _ _ => 0x03
  | .div _ _ _ => 0x04
  | .mod _ _ _ => 0x05
  | .inc _ _ => 0x06
  | .dec _ _ => 0x07
  | .cmp _ _ => 0x08
  | .and _ _ _ => 0x10
  | .or _ _ _ => 0x11
  | .xor _ _ _ => 0x12
  | .not _ _ => 0x13
  | .shl _ _ _ => 0x14
  | .shr _ _ _ => 0x15
  | .zero _ => 0x20
  | .ldn _ _ => 0x21
  | .ldnt _ _ => 0x22
  | .stn _ _ => 0x23
  | .rdl _ _ => 0x24
  | .wrl _ _ => 0x25

/-- The word of a command, its unused fields zero (R61, R62, R65). -/
def encode (i : Instr) : Word :=
  match i with
  | .add vd vs1 vs2 => pack i.opcode vd vs1 vs2 0
  | .sub vd vs1 vs2 => pack i.opcode vd vs1 vs2 0
  | .mul vd vs1 vs2 => pack i.opcode vd vs1 vs2 0
  | .div vd vs1 vs2 => pack i.opcode vd vs1 vs2 0
  | .mod vd vs1 vs2 => pack i.opcode vd vs1 vs2 0
  | .inc vd vs1 => pack i.opcode vd vs1 0 0
  | .dec vd vs1 => pack i.opcode vd vs1 0 0
  | .cmp vs1 vs2 => pack i.opcode 0 vs1 vs2 0
  | .and vd vs1 vs2 => pack i.opcode vd vs1 vs2 0
  | .or vd vs1 vs2 => pack i.opcode vd vs1 vs2 0
  | .xor vd vs1 vs2 => pack i.opcode vd vs1 vs2 0
  | .not vd vs1 => pack i.opcode vd vs1 0 0
  | .shl vd vs1 vs2 => pack i.opcode vd vs1 vs2 0
  | .shr vd vs1 vs2 => pack i.opcode vd vs1 vs2 0
  | .zero vd => pack i.opcode vd 0 0 0
  | .ldn vd sz => pack i.opcode vd 0 0 (0#10 ++ sz.sel)
  | .ldnt vd sz => pack i.opcode vd 0 0 (0#10 ++ sz.sel)
  | .stn vs1 sz => pack i.opcode 0 vs1 0 (0#10 ++ sz.sel)
  | .rdl vs1 idx => pack i.opcode 0 vs1 0 (BitVec.ofFin (w := 12) idx)
  | .wrl vd idx => pack i.opcode vd 0 0 (BitVec.ofFin (w := 12) idx)

/-- The word a row of spec/opcode_table.json stands for: `w` numbers its bits as the table does, the
bits at and above `nbits` are 0, and a command has 32 bits (R60). -/
def tableWord (nbits w : Nat) : Word := BitVec.ofNat 32 (w % 2 ^ nbits)

/-- The decoder on a table row's word, for the engine `State.reset` is an instance of (log 8). -/
def decodeTableWord (nbits w : Nat) : Option Instr := decode Config.ofReset (tableWord nbits w)

end Sys2Proof
end

