-- ==== Sys2Proof/Machine/State.lean ====
section
/-! DEFINITION. The state of one engine with its transaction interface, as plain data, and the
state right after reset (10_state.md R20 to R30; 00_scope.md R8). -/

namespace Sys2Proof.Machine

/-- Why a step stops with a fault: never. The spec gives every command word an outcome, completion or
one of three errors reported in the response, and says there are no stuck states
(70_reset_and_hazards.md R219, 60_exceptions.md R199); so nothing raises a fault (log 7; safe). -/
inductive Fault
deriving DecidableEq, Repr

/-- Why the model gives a step no meaning. -/
inductive Refusal where
  /-- Raised by a refused arm of `exec`: the command has no meaning yet (safe). No arm is refused. -/
  | notModelled (mnemonic : String)
  /-- Raised by `step` for an engine that cannot be built: N is outside `1 <= N <= 4096 * W`
  (00_scope.md R4; 93_implementation_defined.md U5 says such a configuration is refused; log 6; safe). -/
  | configOutOfBounds
deriving DecidableEq, Repr

/-- What a response's `err` says (60_exceptions.md R191). -/
inductive Err where
  | ok
  | divzero
  | trunc
  | illegal
deriving DecidableEq, Repr

/-- One command as the host issues it: the word and the data-in value (00_scope.md R8). -/
structure Command where
  word : Word
  din  : Data
deriving DecidableEq, Repr

/-- One response: the error code, the echo of the opcode field, the data-out value
(00_scope.md R8, 30_encoding.md R71). -/
structure Response where
  err  : Err
  op   : Byte
  dout : Data
deriving DecidableEq, Repr

/-- One engine and its transaction interface. The spec's own state is `regs` (R20 to R29); `cfg` holds
the build parameters (log 1); the other four fields are the interface of R8 (log 3, log 5). -/
structure State where
  /-- N and W, fixed when the engine is built (00_scope.md R4, R5). -/
  cfg       : Config
  /-- The value registers v0 to v15, each a number in [0, 2^N - 1] (10_state.md R20, R23; log 9, log 13). -/
  regs      : Vector Nat 16
  /-- The data-in value that accompanies the command being executed (30_encoding.md R60). -/
  din       : Data
  /-- Commands issued and not answered yet, oldest first (00_scope.md R8). -/
  pending   : List Command
  /-- Responses returned so far, oldest first (00_scope.md R8, 70_reset_and_hazards.md R213). -/
  responses : List Response
  /-- The host asks for a reset (70_reset_and_hazards.md R210). -/
  resetReq  : Bool
deriving DecidableEq, Repr

/-- An engine built with `c`, right after reset: every register zero (10_state.md R30). The interface
fields are empty (DESIGN CHOICE, log 3: they are the model's own). -/
def State.resetOf (c : Config) : State :=
  { cfg := c, regs := Vector.replicate 16 0, din := 0, pending := [], responses := [], resetReq := false }

/-- The machine right after reset, of the engine N = 256, W = 32 (DESIGN CHOICE, log 2). -/
def State.reset : State := State.resetOf Config.ofReset

end Sys2Proof.Machine
end

