-- ==== Sys2Proof/Machine/Ops.lean ====
section
/-! DEFINITION. The named operations over registers, limb storage and interface that every meaning
is written with: register and limb access, completing a command, failing it, reset, accepting a
command. -/

namespace Sys2Proof.Machine

namespace State

/-! ### Registers (10_state.md R20) -/

/-- `v[r]` (00_scope.md R10). -/
def v (s : State) (r : VReg) : Nat := s.regs[r]

/-- `v[r] <- x` (00_scope.md R10): every meaning passes an `x` it has reduced into [0, MAXVAL]. -/
def setV (s : State) (r : VReg) (x : Nat) : State := { s with regs := s.regs.set r x }

/-! ### Limb storage: the registers seen limb by limb (10_state.md R21, 20_memory.md R40) -/

/-- `MemRead((r, i), 1) = (v[r] div 2^(W*i)) mod 2^W` (20_memory.md R42). -/
def memRead (s : State) (r : VReg) (i : Nat) : Nat := s.v r / 2 ^ (s.cfg.W * i) % 2 ^ s.cfg.W

/-- `MemWrite((r, i), 1, x)`: limb `i` of register `r` becomes `x` (20_memory.md R43). -/
def memWrite (s : State) (r : VReg) (i x : Nat) : State :=
  s.setV r (s.v r - s.memRead r i * 2 ^ (s.cfg.W * i) + x * 2 ^ (s.cfg.W * i))

/-! ### Ending a command (00_scope.md R10, 30_encoding.md R71) -/

/-- Return one response, after those already returned (00_scope.md R8). -/
def emit (s : State) (e : Err) (op : Byte) (d : Data) : State :=
  { s with responses := s.responses ++ [⟨e, op, d⟩] }

/-- `respond(d)`: the command completes with `(0, op, d)` (00_scope.md R10). -/
def respond (s : State) (op : Byte) (d : Data) : State := s.emit .ok op d

/-- The command writes `v[vd] <- x` and completes with `(0, op, 0)` (00_scope.md R10). -/
def complete (s : State) (vd : VReg) (x : Nat) (op : Byte) : State := (s.setV vd x).respond op 0

/-- `raise E(op)`, this hardware's whole exception entry: no register written, nothing saved, the
response `(code(E), op, 0)`, and the next command is accepted (60_exceptions.md R190, R199). There is
no return operation beside it: nothing is saved, so nothing is restored (R200). -/
def raise (s : State) (e : Err) (op : Byte) : State := s.emit e op 0

/-! ### The host's side (00_scope.md R8) -/

/-- The oldest issued command `c` leaves the queue, whose rest is `rest`, and its data-in value is
presented to the engine. -/
def accept (s : State) (c : Command) (rest : List Command) : State :=
  { s with pending := rest, din := c.din }

/-- The host issues `c` ahead of every command not answered yet, and asks for no reset. -/
def issueNext (s : State) (c : Command) : State := { s with pending := c :: s.pending, resetReq := false }

/-- The reset event: every register zero; a command issued and not answered is abandoned without a
response; responses already returned stay; N and W are the same (70_reset_and_hazards.md R210, R211,
R212; log 5). -/
def applyReset (s : State) : State :=
  { s with regs := Vector.replicate 16 0, pending := [], resetReq := false }

end State

/-- The 2-bit code of an error (60_exceptions.md R191). -/
def Err.code : Err → BitVec 2
  | .ok => 0
  | .divzero => 1
  | .trunc => 2
  | .illegal => 3

/-- Every register holds a value of the type: invariant B (10_state.md R23). -/
abbrev State.InRange (s : State) : Prop := ∀ r : VReg, s.v r < 2 ^ s.cfg.N

/-- The limb storage is in canonical form: invariant A, `MemRead((r, L-1), 1) <= TOPMASK`, and a register
is no more than its L limbs, both as invariant B gives them (10_state.md R21, R22, R23). -/
def Memory.wf (s : State) : Bool := decide s.InRange

end Sys2Proof.Machine
end

