-- ==== Sys2Proof/Machine/Operands.lean ====
section
/-! DEFINITION. How each operand that is not a register is obtained (30_encoding.md R63), and the
number a data field carries. -/

namespace Sys2Proof.Machine

/-- The native width in bits, `8 * 2^sz` (30_encoding.md R63, 40_construct_convert.md R94). -/
def nativeWidth : NativeSize → Nat
  | .b8 => 8
  | .b16 => 16
  | .b32 => 32
  | .b64 => 64

/-- The native value of LDN and LDNT, `x = din[width-1:0]`; the bits above are ignored (R63). -/
def State.nativeValue (s : State) (sz : NativeSize) : Nat := s.din.toNat % 2 ^ nativeWidth sz

/-- The limb value of WRL, `x = din[W-1:0]`; the bits above are ignored (R63). -/
def State.limbValue (s : State) : Nat := s.din.toNat % 2 ^ s.cfg.W

/-- The shift amount of SHL and SHR: the whole value of `v[vs2]` (45_bitwise.md R175). -/
def State.shiftAmount (s : State) (vs2 : VReg) : Nat := s.v vs2

/-- `zext_64(x)` of a number below 2^64 (00_scope.md R10). -/
def zext64 (x : Nat) : Data := BitVec.ofNat 64 x

end Sys2Proof.Machine
end

