-- ==== Sys2Proof/Machine/Flags.lean ====
section
/-! DEFINITION. The engine has no flags, condition codes or predicates (10_state.md R26). What stands
in their place: the three-way comparison result that CMP returns in `dout`, and the six relational
operators the host evaluates on it (44_compare.md R155, R157). -/

namespace Sys2Proof.Machine

/-- The comparison of two values as unsigned integers (44_compare.md R155). -/
def threeWay (a b : Nat) : Ordering := if a = b then .eq else if a < b then .lt else .gt

/-- The number that stands for a comparison result: 0 equal, 1 less, 2 greater (44_compare.md R155). -/
def cmpCode : Ordering → Nat
  | .eq => 0
  | .lt => 1
  | .gt => 2

/-- The six relational operators (44_compare.md R157). -/
inductive Relation where
  | eq | ne | lt | le | gt | ge
deriving DecidableEq, Repr

/-- Whether the operator holds, from `c = dout[1:0]` of a completed CMP (44_compare.md R157). -/
def Relation.onCmp (rel : Relation) (dout : Data) : Bool :=
  let c := dout.extractLsb 1 0
  match rel with
  | .eq => c == 0
  | .ne => c != 0
  | .lt => c == 1
  | .le => c != 2
  | .gt => c == 2
  | .ge => c != 1

end Sys2Proof.Machine
end

