-- ==== Sys2Proof/Machine/Limbs.lean ====
section
/-! DEFINITION. Limb sequences, least significant limb first, and the steps the limb-level reference
datapaths share (00_scope.md R10, R11; 20_memory.md R41). A meaning computes the normative
value-level result; the limb-level algorithms of the family files compute the same number. -/

namespace Sys2Proof.Machine

/-- `limbs(x)`: the sequence `a[0..L-1]` with `a[i] = (x div 2^(W*i)) mod 2^W` (00_scope.md R10). -/
def limbs (c : Config) (x : Nat) : List Nat :=
  (List.range c.L).map fun i => x / 2 ^ (c.W * i) % 2 ^ c.W

/-- `val(a)`: the sum over i of `a[i] * 2^(W*i)` (00_scope.md R10). -/
def limbsVal (W : Nat) : List Nat → Nat
  | [] => 0
  | a :: as => a + 2 ^ W * limbsVal W as

/-- `r[L-1] = r[L-1] AND TOPMASK`: restore invariant A (41_addsub.md R112). -/
def maskTop (c : Config) (r : List Nat) : List Nat := r.modify (c.L - 1) (· &&& c.topMask)

/-- Limb `m` of a sequence, 0 for every `m` outside it (45_bitwise.md R178). -/
def limbAt (a : List Nat) (m : Int) : Nat := if m < 0 then 0 else a.getD m.toNat 0

end Sys2Proof.Machine
end

