-- ==== Sys2Proof/Machine/AddSub.lean ====
section
/-! DEFINITION. The multi-limb adder: ADD, SUB, INC, DEC (41_addsub.md). -/

namespace Sys2Proof.Machine

/-! ### Values (R111, R113) -/

/-- The sum, wrapping modulo 2^N (R111). -/
def addWrap (N a b : Nat) : Nat := (a + b) % 2 ^ N

/-- The difference, wrapping modulo 2^N: the exact difference of integers, reduced to its non-negative
remainder (R113, 00_scope.md R9). -/
def subWrap (N a b : Nat) : Nat := (((a : Int) - (b : Int)) % ((2 ^ N : Nat) : Int)).toNat

/-! ### Meanings -/

/-- ADD vd, vs1, vs2 (R111). -/
def execAdd (vd vs1 vs2 : VReg) (s : State) : Host.Outcome State Fault Refusal :=
  .next (s.complete vd (addWrap s.cfg.N (s.v vs1) (s.v vs2)) 0x01)

/-- SUB vd, vs1, vs2 (R113). -/
def execSub (vd vs1 vs2 : VReg) (s : State) : Host.Outcome State Fault Refusal :=
  .next (s.complete vd (subWrap s.cfg.N (s.v vs1) (s.v vs2)) 0x02)

/-- INC vd, vs1 (R115). -/
def execInc (vd vs1 : VReg) (s : State) : Host.Outcome State Fault Refusal :=
  .next (s.complete vd (addWrap s.cfg.N (s.v vs1) 1) 0x06)

/-- DEC vd, vs1 (R116). -/
def execDec (vd vs1 : VReg) (s : State) : Host.Outcome State Fault Refusal :=
  .next (s.complete vd (subWrap s.cfg.N (s.v vs1) 1) 0x07)

/-! ### Limb level (R110, R112, R114) -/

/-- `add_with_carry(x, y, c)`: the W-bit sum limb and the carry out (R110). -/
def addWithCarry (W x y c : Nat) : Nat × Nat := ((x + y + c) % 2 ^ W, (x + y + c) / 2 ^ W)

/-- `sub_with_borrow(x, y, b)`: the W-bit difference limb and the borrow out (R110). -/
def subWithBorrow (W x y b : Nat) : Nat × Nat :=
  let d : Int := (x : Int) - (y : Int) - (b : Int)
  ((d % ((2 ^ W : Nat) : Int)).toNat, if d < 0 then 1 else 0)

/-- The ripple-carry loop from least to most significant limb, with the final carry (R112). -/
def rippleCarry (W : Nat) : List Nat → List Nat → Nat → List Nat × Nat
  | a :: as, b :: bs, c =>
    let (r, c') := addWithCarry W a b c
    let (rs, out) := rippleCarry W as bs c'
    (r :: rs, out)
  | _, _, c => ([], c)

/-- The ripple-borrow loop from least to most significant limb, with the final borrow (R114). -/
def rippleBorrow (W : Nat) : List Nat → List Nat → Nat → List Nat × Nat
  | a :: as, b :: bs, c =>
    let (r, c') := subWithBorrow W a b c
    let (rs, out) := rippleBorrow W as bs c'
    (r :: rs, out)
  | _, _, c => ([], c)

/-- ADD at limb level: the carry out of limb L-1 is discarded and the top limb masked (R112). -/
def addLimbs (c : Config) (a b : List Nat) : List Nat := maskTop c (rippleCarry c.W a b 0).1

/-- SUB at limb level: the borrow out of limb L-1 is discarded and the top limb masked (R114). -/
def subLimbs (c : Config) (a b : List Nat) : List Nat := maskTop c (rippleBorrow c.W a b 0).1

end Sys2Proof.Machine
end

