-- ==== Sys2Proof/Machine/Bitwise.lean ====
section
/-! DEFINITION. The bitwise operators and shifts: AND, OR, XOR, NOT, SHL, SHR (45_bitwise.md). -/

namespace Sys2Proof.Machine

/-! ### Values (R170 to R177) -/

/-- The complement within N bits, `MAXVAL - a` (R174). -/
def notVal (N a : Nat) : Nat := 2 ^ N - 1 - a

/-- Shift left by `k`: 0 when `k >= N` (R176). -/
def shlVal (N a k : Nat) : Nat := if k ≥ N then 0 else a * 2 ^ k % 2 ^ N

/-- Logical shift right by `k`: 0 when `k >= N` (R177). -/
def shrVal (N a k : Nat) : Nat := if k ≥ N then 0 else a / 2 ^ k

/-! ### Meanings -/

/-- AND vd, vs1, vs2 (R171). -/
def execAnd (vd vs1 vs2 : VReg) (s : State) : Host.Outcome State Fault Refusal :=
  .next (s.complete vd (s.v vs1 &&& s.v vs2) 0x10)

/-- OR vd, vs1, vs2 (R172). -/
def execOr (vd vs1 vs2 : VReg) (s : State) : Host.Outcome State Fault Refusal :=
  .next (s.complete vd (s.v vs1 ||| s.v vs2) 0x11)

/-- XOR vd, vs1, vs2 (R173). -/
def execXor (vd vs1 vs2 : VReg) (s : State) : Host.Outcome State Fault Refusal :=
  .next (s.complete vd (s.v vs1 ^^^ s.v vs2) 0x12)

/-- NOT vd, vs1 (R174). -/
def execNot (vd vs1 : VReg) (s : State) : Host.Outcome State Fault Refusal :=
  .next (s.complete vd (notVal s.cfg.N (s.v vs1)) 0x13)

/-- SHL vd, vs1, vs2 (R175, R176). -/
def execShl (vd vs1 vs2 : VReg) (s : State) : Host.Outcome State Fault Refusal :=
  .next (s.complete vd (shlVal s.cfg.N (s.v vs1) (s.shiftAmount vs2)) 0x14)

/-- SHR vd, vs1, vs2 (R175, R177). -/
def execShr (vd vs1 vs2 : VReg) (s : State) : Host.Outcome State Fault Refusal :=
  .next (s.complete vd (shrVal s.cfg.N (s.v vs1) (s.shiftAmount vs2)) 0x15)

/-! ### Limb level (R171 to R174, R178) -/

/-- AND at limb level: limb by limb, no carry between limbs (R170, R171). -/
def andLimbs (a b : List Nat) : List Nat := List.zipWith (· &&& ·) a b

/-- OR at limb level (R170, R172). -/
def orLimbs (a b : List Nat) : List Nat := List.zipWith (· ||| ·) a b

/-- XOR at limb level (R170, R173). -/
def xorLimbs (a b : List Nat) : List Nat := List.zipWith (· ^^^ ·) a b

/-- NOT at limb level: complement each limb, then mask the top one (R174). -/
def notLimbs (c : Config) (a : List Nat) : List Nat := maskTop c (a.map (c.limbMax - ·))

/-- SHL at limb level, by `k < N`: `k div W` whole limbs and `k mod W` bits (R178). -/
def shlLimbs (c : Config) (a : List Nat) (k : Nat) : List Nat :=
  let whole : Int := (k / c.W : Nat)
  let b := k % c.W
  maskTop c <| (List.range c.L).map fun (m : Nat) =>
    let lo := limbAt a (m - whole) * 2 ^ b % 2 ^ c.W
    let hi := if b = 0 then 0 else limbAt a (m - whole - 1) / 2 ^ (c.W - b)
    lo + hi

/-- SHR at limb level, by `k < N` (R178). -/
def shrLimbs (c : Config) (a : List Nat) (k : Nat) : List Nat :=
  let whole : Int := (k / c.W : Nat)
  let b := k % c.W
  (List.range c.L).map fun (m : Nat) =>
    let lo := limbAt a (m + whole) / 2 ^ b
    let hi := if b = 0 then 0 else limbAt a (m + whole + 1) * 2 ^ (c.W - b) % 2 ^ c.W
    lo + hi

end Sys2Proof.Machine
end

