-- ==== Sys2Proof/Machine/Compare.lean ====
section
/-! DEFINITION. The limb comparator: CMP (44_compare.md). -/

namespace Sys2Proof.Machine

/-- CMP vs1, vs2 (R155). -/
def execCmp (vs1 vs2 : VReg) (s : State) : Host.Outcome State Fault Refusal :=
  .next (s.respond 0x08 (zext64 (cmpCode (threeWay (s.v vs1) (s.v vs2)))))

/-- The comparison of two sequences given most significant limb first: the first unequal limb decides
(R156). -/
def compareFromTop : List Nat → List Nat → Ordering
  | a :: as, b :: bs => if a < b then .lt else if a > b then .gt else compareFromTop as bs
  | _, _ => .eq

/-- CMP at limb level: `compare(a, b)`, from limb L-1 down to limb 0 (R156). -/
def compareLimbs (a b : List Nat) : Ordering := compareFromTop a.reverse b.reverse

end Sys2Proof.Machine
end

