-- ==== Sys2Proof/Machine/Construct.lean ====
section
/-! DEFINITION. Construction, native conversion and limb access: ZERO, LDN, LDNT, STN, RDL, WRL
(40_construct_convert.md). -/

namespace Sys2Proof.Machine

/-- ZERO vd (R90). -/
def execZero (vd : VReg) (s : State) : Host.Outcome State Fault Refusal :=
  .next (s.complete vd 0 0x20)

/-- LDN.w vd, #x: TRUNC when the value, not the width, is too wide (R91, 90_conflicts.md C2). -/
def execLdn (vd : VReg) (sz : NativeSize) (s : State) : Host.Outcome State Fault Refusal :=
  if s.nativeValue sz ≥ 2 ^ s.cfg.N then .next (s.raise .trunc 0x21)
  else .next (s.complete vd (s.nativeValue sz) 0x21)

/-- LDNT.w vd, #x (R92). -/
def execLdnt (vd : VReg) (sz : NativeSize) (s : State) : Host.Outcome State Fault Refusal :=
  .next (s.complete vd (s.nativeValue sz % 2 ^ s.cfg.N) 0x22)

/-- STN.w vs1 (R93). -/
def execStn (vs1 : VReg) (sz : NativeSize) (s : State) : Host.Outcome State Fault Refusal :=
  .next (s.respond 0x23 (zext64 (s.v vs1 % 2 ^ nativeWidth sz)))

/-- RDL vs1, idx (R95). The decoder has already refused `idx >= L` (30_encoding.md R67); the meaning of
the term gives the same answer (log 8). -/
def execRdl (vs1 : VReg) (idx : Fin 4096) (s : State) : Host.Outcome State Fault Refusal :=
  if idx.val ≥ s.cfg.L then .next (s.raise .illegal 0x24)
  else .next (s.respond 0x24 (zext64 (s.memRead vs1 idx)))

/-- WRL vd, idx, #x: the index check comes before the top-limb check (R96, 60_exceptions.md R198; the
index check as in `execRdl`, log 8). -/
def execWrl (vd : VReg) (idx : Fin 4096) (s : State) : Host.Outcome State Fault Refusal :=
  if idx.val ≥ s.cfg.L then .next (s.raise .illegal 0x25)
  else if idx.val = s.cfg.L - 1 ∧ s.limbValue > s.cfg.topMask then .next (s.raise .trunc 0x25)
  else .next ((s.memWrite vd idx s.limbValue).respond 0x25 0)

end Sys2Proof.Machine
end

