-- ==== Sys2Proof/Machine/DivMod.lean ====
section
/-! DEFINITION. The long-division engine: DIV, MOD (43_divmod.md). -/

namespace Sys2Proof.Machine

/-- `divmod(a, d) = (a div d, a mod d)`, used for `d > 0` only (R140). -/
def divmod (a d : Nat) : Nat × Nat := (a / d, a % d)

/-- DIV vd, vs1, vs2: the divisor is tested first (R141, R143). -/
def execDiv (vd vs1 vs2 : VReg) (s : State) : Host.Outcome State Fault Refusal :=
  if s.v vs2 = 0 then .next (s.raise .divzero 0x04)
  else .next (s.complete vd (divmod (s.v vs1) (s.v vs2)).1 0x04)

/-- MOD vd, vs1, vs2: the divisor is tested first (R141, R144). -/
def execMod (vd vs1 vs2 : VReg) (s : State) : Host.Outcome State Fault Refusal :=
  if s.v vs2 = 0 then .next (s.raise .divzero 0x05)
  else .next (s.complete vd (divmod (s.v vs1) (s.v vs2)).2 0x05)

/-! ### Bit at a time (R142) -/

/-- The trial remainder of the iteration for bit `i`, before the subtraction: shifted left, with dividend
bit `i` brought in (R142). -/
def trialRemainder (a i r : Nat) : Nat := 2 * r + a / 2 ^ i % 2

/-- The iteration for bit `i`: where the divisor fits the trial remainder, subtract it and set the
quotient bit (R142). -/
def divStep (a d i : Nat) (qr : Nat × Nat) : Nat × Nat :=
  let r' := trialRemainder a i qr.2
  if r' ≥ d then (qr.1 + 2 ^ i, r' - d) else (qr.1, r')

/-- The `n` iterations for the bits `lo + n - 1` down to `lo` of the dividend `a` (R142). -/
def divBits (a d lo : Nat) : Nat → Nat × Nat → Nat × Nat
  | 0, qr => qr
  | n + 1, qr => divBits a d lo n (divStep a d (lo + n) qr)

/-- Bit-at-a-time long division over all N bit positions, from `q = 0; r = 0` (R142). -/
def longDivide (N a d : Nat) : Nat × Nat := divBits a d 0 N (0, 0)

/-! ### The same over limbs (R146) -/

/-- Shift a sequence left by one, bit `c` entering at the bottom; with the bit that leaves the top. -/
def shiftIn (W : Nat) : List Nat → Nat → List Nat × Nat
  | [], c => ([], c)
  | r :: rs, c =>
    let t := 2 * r + c
    let (rs', out) := shiftIn W rs (t / 2 ^ W)
    (t % 2 ^ W :: rs', out)

/-- The iterations for the bits `i-1` down to 0 of the dividend `al`, on working sequences of limbs:
quotient `ql` and trial remainder `rl` (R146). -/
def divLimbsLoop (W : Nat) (al dl : List Nat) : Nat → List Nat × List Nat → List Nat × List Nat
  | 0, qr => qr
  | i + 1, (ql, rl) =>
    let bit := al.getD (i / W) 0 / 2 ^ (i % W) % 2
    let rl' := (shiftIn W rl bit).1
    divLimbsLoop W al dl i
      (if compareLimbs rl' dl ≠ .lt then
        (ql.modify (i / W) (· + 2 ^ (i % W)), (rippleBorrow W rl' dl 0).1)
      else (ql, rl'))

/-- Division at limb level: the quotient and remainder limbs, both zero at the start (R146). -/
def divLimbs (c : Config) (al dl : List Nat) : List Nat × List Nat :=
  divLimbsLoop c.W al dl c.N (List.replicate c.L 0, List.replicate c.L 0)

end Sys2Proof.Machine
end

