-- ==== Sys2Proof/Machine/Mul.lean ====
section
/-! DEFINITION. The multi-limb multiplier: MUL (42_mul.md). -/

namespace Sys2Proof.Machine

/-- The product, wrapping modulo 2^N (R130). -/
def mulWrap (N a b : Nat) : Nat := a * b % 2 ^ N

/-- MUL vd, vs1, vs2 (R130). -/
def execMul (vd vs1 vs2 : VReg) (s : State) : Host.Outcome State Fault Refusal :=
  .next (s.complete vd (mulWrap s.cfg.N (s.v vs1) (s.v vs2)) 0x03)

/-! ### Limb level (R131, R132) -/

/-- `mul_wide(x, y)`: the exact double-limb product (R132). -/
def mulWide (x y : Nat) : Nat := x * y

/-- One row of the schoolbook loop, for the limb `x` of the first operand: the limbs `b` of the second
are multiplied in and added to the intermediate `p` from its own position on, `k` being the carry
limb, which is stored in the limb after the row (R131). -/
def mulRow (W x : Nat) : List Nat → List Nat → Nat → List Nat
  | [], _ :: ps, k => k :: ps
  | b :: bs, p :: ps, k =>
    let t := mulWide x b + p + k
    t % 2 ^ W :: mulRow W x bs ps (t / 2 ^ W)
  | _, [], _ => []

/-- The rows for the limbs `a`, each starting one limb higher than the one before it (R131). -/
def mulRows (W : Nat) : List Nat → List Nat → List Nat → List Nat
  | [], _, p => p
  | a :: as, b, p =>
    match mulRow W a b p 0 with
    | [] => []
    | q :: qs => q :: mulRows W as b qs

/-- The 2L-limb intermediate, zero at the start (R131). -/
def mulIntermediate (c : Config) (a b : List Nat) : List Nat :=
  mulRows c.W a b (List.replicate (2 * c.L) 0)

/-- MUL at limb level: the intermediate truncated to L limbs and masked to N bits (R131). -/
def mulLimbs (c : Config) (a b : List Nat) : List Nat :=
  maskTop c ((mulIntermediate c a b).take c.L)

end Sys2Proof.Machine
end

