-- ==== Sys2Proof/Machine/Dispatch.lean ====
section
/-! DEFINITION. The meaning of each command (30_encoding.md R64). -/

namespace Sys2Proof.Machine

def exec (i : Instr) (s : State) : Host.Outcome State Fault Refusal :=
  match i with
  | .add vd vs1 vs2 => Sys2Proof.Machine.execAdd vd vs1 vs2 s
  | .sub vd vs1 vs2 => Sys2Proof.Machine.execSub vd vs1 vs2 s
  | .mul vd vs1 vs2 => Sys2Proof.Machine.execMul vd vs1 vs2 s
  | .div vd vs1 vs2 => Sys2Proof.Machine.execDiv vd vs1 vs2 s
  | .mod vd vs1 vs2 => Sys2Proof.Machine.execMod vd vs1 vs2 s
  | .inc vd vs1 => Sys2Proof.Machine.execInc vd vs1 s
  | .dec vd vs1 => Sys2Proof.Machine.execDec vd vs1 s
  | .cmp vs1 vs2 => Sys2Proof.Machine.execCmp vs1 vs2 s
  | .and vd vs1 vs2 => Sys2Proof.Machine.execAnd vd vs1 vs2 s
  | .or vd vs1 vs2 => Sys2Proof.Machine.execOr vd vs1 vs2 s
  | .xor vd vs1 vs2 => Sys2Proof.Machine.execXor vd vs1 vs2 s
  | .not vd vs1 => Sys2Proof.Machine.execNot vd vs1 s
  | .shl vd vs1 vs2 => Sys2Proof.Machine.execShl vd vs1 vs2 s
  | .shr vd vs1 vs2 => Sys2Proof.Machine.execShr vd vs1 vs2 s
  | .zero vd => Sys2Proof.Machine.execZero vd s
  | .ldn vd sz => Sys2Proof.Machine.execLdn vd sz s
  | .ldnt vd sz => Sys2Proof.Machine.execLdnt vd sz s
  | .stn vs1 sz => Sys2Proof.Machine.execStn vs1 sz s
  | .rdl vs1 idx => Sys2Proof.Machine.execRdl vs1 idx s
  | .wrl vd idx => Sys2Proof.Machine.execWrl vd idx s

end Sys2Proof.Machine
end

