-- ==== Sys2Proof/Machine/Cycle.lean ====
section
/-! DEFINITION. What one step of the engine does: a reset, one command, or nothing
(00_scope.md R8, 20_memory.md R48). -/

namespace Sys2Proof.Machine

/-- The engine takes the oldest issued command `c`, decodes it and executes it atomically. A word that
spells no command fails with ILLEGAL before any register is read (30_encoding.md R65 to R67,
60_exceptions.md R195). -/
def runCommand (c : Command) (rest : List Command) (s : State) : Host.Outcome State Fault Refusal :=
  match decode s.cfg c.word with
  | some i => exec i (s.accept c rest)
  | none => .next ((s.accept c rest).raise .illegal (opc c.word))

/-- A configuration the engine cannot be built with is refused (R4; log 6). A requested reset is applied
between two commands (70_reset_and_hazards.md R211; log 5). With no command issued nothing happens
(60_exceptions.md R197; log 4). -/
def advance (s : State) : Host.Outcome State Fault Refusal :=
  if s.cfg.ok then
    if s.resetReq then .next s.applyReset
    else
      match s.pending with
      | [] => .next s
      | c :: rest => runCommand c rest s
  else .refused .configOutOfBounds

end Sys2Proof.Machine
end

