-- ==== Sys2Proof/Machine/Step.lean ====
section
/-! DEFINITION. One step of the machine, and a table word issued as its next command. -/

namespace Sys2Proof.Machine

/-- One step of the engine. -/
def step (s : State) : Host.Outcome State Fault Refusal := advance s

/-- `s` with the table word issued as the next command, with the data-in value `s` holds. The engine
fetches nothing (10_state.md R25): a command comes from the host (log 3). -/
def State.withFetchWord (s : State) (nbits w : Nat) : State := s.issueNext ⟨tableWord nbits w, s.din⟩

end Sys2Proof.Machine
end

