-- ==== Sys2Proof/Machine/Pseudo.lean ====
section
/-! DEFINITION. The assembler's pseudo-instructions and syntax (30_encoding.md R69, R70). They spell
commands and have no words or meaning of their own. -/

namespace Sys2Proof.Machine

/-- The operators of the compound assignment forms `a op= b` (R70). -/
inductive AssignOp where
  | add | sub | mul | div | mod | and | or | xor | shl | shr
deriving DecidableEq, Repr

/-- The pseudo-instructions (R70). -/
inductive Pseudo where
  /-- MOV vd, vs. -/
  | mov (vd vs : VReg)
  /-- `va op= vb`. -/
  | assign (op : AssignOp) (va vb : VReg)
  /-- `++va` in place. -/
  | preInc (va : VReg)
  /-- `--va` in place. -/
  | preDec (va : VReg)
  /-- EQ, NE, LT, LE, GT, GE: a CMP whose `dout` the host gives to `Relation.onCmp`. -/
  | relation (rel : Relation) (vs1 vs2 : VReg)
deriving DecidableEq, Repr

/-- The command of an operator, with its three operands. -/
def AssignOp.command : AssignOp → VReg → VReg → VReg → Instr
  | .add => .add
  | .sub => .sub
  | .mul => .mul
  | .div => .div
  | .mod => .mod
  | .and => .and
  | .or => .or
  | .xor => .xor
  | .shl => .shl
  | .shr => .shr

/-- The expansion of a pseudo-instruction, one command each (R70). -/
def Pseudo.expand : Pseudo → Instr
  | .mov vd vs => .or vd vs vs
  | .assign op va vb => op.command va va vb
  | .preInc va => .inc va va
  | .preDec va => .dec va va
  | .relation _ vs1 vs2 => .cmp vs1 vs2

/-- `v0` to `v15` (R69). -/
def regName (r : VReg) : String := "v" ++ toString r.val

/-- The width suffix of LDN, LDNT and STN (R69). -/
def widthSuffix : NativeSize → String
  | .b8 => ".8"
  | .b16 => ".16"
  | .b32 => ".32"
  | .b64 => ".64"

/-- Operands separated by commas (R69). -/
def operandList (l : List String) : String := ", ".intercalate l

/-- The command in the assembler syntax of R69; `x` is the value carried on `din`. -/
def asmText (x : Nat) : Instr → String
  | .add vd vs1 vs2 => "ADD " ++ operandList [regName vd, regName vs1, regName vs2]
  | .sub vd vs1 vs2 => "SUB " ++ operandList [regName vd, regName vs1, regName vs2]
  | .mul vd vs1 vs2 => "MUL " ++ operandList [regName vd, regName vs1, regName vs2]
  | .div vd vs1 vs2 => "DIV " ++ operandList [regName vd, regName vs1, regName vs2]
  | .mod vd vs1 vs2 => "MOD " ++ operandList [regName vd, regName vs1, regName vs2]
  | .inc vd vs1 => "INC " ++ operandList [regName vd, regName vs1]
  | .dec vd vs1 => "DEC " ++ operandList [regName vd, regName vs1]
  | .cmp vs1 vs2 => "CMP " ++ operandList [regName vs1, regName vs2]
  | .and vd vs1 vs2 => "AND " ++ operandList [regName vd, regName vs1, regName vs2]
  | .or vd vs1 vs2 => "OR " ++ operandList [regName vd, regName vs1, regName vs2]
  | .xor vd vs1 vs2 => "XOR " ++ operandList [regName vd, regName vs1, regName vs2]
  | .not vd vs1 => "NOT " ++ operandList [regName vd, regName vs1]
  | .shl vd vs1 vs2 => "SHL " ++ operandList [regName vd, regName vs1, regName vs2]
  | .shr vd vs1 vs2 => "SHR " ++ operandList [regName vd, regName vs1, regName vs2]
  | .zero vd => "ZERO " ++ regName vd
  | .ldn vd sz => "LDN" ++ widthSuffix sz ++ " " ++ operandList [regName vd, "#" ++ toString x]
  | .ldnt vd sz => "LDNT" ++ widthSuffix sz ++ " " ++ operandList [regName vd, "#" ++ toString x]
  | .stn vs1 sz => "STN" ++ widthSuffix sz ++ " " ++ regName vs1
  | .rdl vs1 idx => "RDL " ++ operandList [regName vs1, toString idx.val]
  | .wrl vd idx => "WRL " ++ operandList [regName vd, toString idx.val, "#" ++ toString x]

end Sys2Proof.Machine
end

