-- ==== Sys2Proof/Safety.lean ====
section
/-! DEFINITION. The terms the claims are stated in: what a command may change, the invariant of a safe
run, and the tables of the spec a claim compares the model with. -/

namespace Sys2Proof

open Sys2Proof.Machine

/-! ### What one command does to the state (00_scope.md R10, 60_exceptions.md R190) -/

/-- Everything but the registers and the responses is as before. -/
def SameElse (s t : State) : Prop :=
  t.cfg = s.cfg ∧ t.din = s.din ∧ t.pending = s.pending ∧ t.resetReq = s.resetReq

/-- The command wrote `x` to `vd`, no other register, and answered `(0, op, 0)`. -/
def Wrote (s : State) (vd : VReg) (x : Nat) (op : Byte) (t : State) : Prop :=
  t.v vd = x ∧ (∀ r, r ≠ vd → t.v r = s.v r) ∧ t.responses = s.responses ++ [⟨.ok, op, 0⟩] ∧ SameElse s t

/-- The command wrote no register and answered `(0, op, d)`. -/
def Answered (s : State) (d : Data) (op : Byte) (t : State) : Prop :=
  (∀ r, t.v r = s.v r) ∧ t.responses = s.responses ++ [⟨.ok, op, d⟩] ∧ SameElse s t

/-- The command failed with `e`: no register is written and the answer is `(e, op, 0)` (R190). -/
def Failed (s : State) (e : Err) (op : Byte) (t : State) : Prop :=
  (∀ r, t.v r = s.v r) ∧ t.responses = s.responses ++ [⟨e, op, 0⟩] ∧ SameElse s t

/-- `t` has the command `c` taken from the front of the issued commands of `s`, whose rest is `rest`:
the data-in value of `c` is presented, nothing else differs. -/
def presented (s : State) (c : Command) (rest : List Command) : State :=
  { s with pending := rest, din := c.din }

/-! ### The spec's tables -/

/-- A command word as R62 writes it in hexadecimal: `OO d s t iii`. -/
def hexWord (oo d s t iii : Nat) : Word :=
  BitVec.ofNat 32 (oo * 16 ^ 6 + d * 16 ^ 5 + s * 16 ^ 4 + t * 16 ^ 3 + iii)

/-- One row of the opcode table: `match`, `mask`, and whether `imm` is a limb index (30_encoding.md R61,
R64, R67). -/
structure OpcodeRow where
  pattern : Word
  mask    : Word
  indexed : Bool
deriving DecidableEq, Repr

/-- The 20 rows (30_encoding.md R61, R64). -/
def opcodeRows : List OpcodeRow :=
  [⟨0x01000000, 0xFF000FFF, false⟩, ⟨0x02000000, 0xFF000FFF, false⟩, ⟨0x03000000, 0xFF000FFF, false⟩,
   ⟨0x04000000, 0xFF000FFF, false⟩, ⟨0x05000000, 0xFF000FFF, false⟩, ⟨0x06000000, 0xFF00FFFF, false⟩,
   ⟨0x07000000, 0xFF00FFFF, false⟩, ⟨0x08000000, 0xFFF00FFF, false⟩] ++
  [⟨0x10000000, 0xFF000FFF, false⟩, ⟨0x11000000, 0xFF000FFF, false⟩, ⟨0x12000000, 0xFF000FFF, false⟩,
   ⟨0x13000000, 0xFF00FFFF, false⟩, ⟨0x14000000, 0xFF000FFF, false⟩, ⟨0x15000000, 0xFF000FFF, false⟩] ++
  [⟨0x20000000, 0xFF0FFFFF, false⟩, ⟨0x21000000, 0xFF0FFFFC, false⟩, ⟨0x22000000, 0xFF0FFFFC, false⟩,
   ⟨0x23000000, 0xFFF0FFFC, false⟩, ⟨0x24000000, 0xFFF0F000, true⟩, ⟨0x25000000, 0xFF0FF000, true⟩]

/-- The word spells a command of an engine built with `c` (30_encoding.md R67). -/
def Spells (c : Config) (w : Word) : Prop :=
  ∃ row ∈ opcodeRows, w &&& row.mask = row.pattern ∧ (row.indexed = true → w.toNat % 2 ^ 12 < c.L)

/-- The register a command writes when it completes (10_state.md R31). -/
def writes : Instr → Option VReg
  | .zero vd | .ldn vd _ | .ldnt vd _ | .wrl vd _ => some vd
  | .add vd _ _ | .sub vd _ _ | .mul vd _ _ | .div vd _ _ | .mod vd _ _ => some vd
  | .inc vd _ | .dec vd _ | .not vd _ => some vd
  | .and vd _ _ | .or vd _ _ | .xor vd _ _ | .shl vd _ _ | .shr vd _ _ => some vd
  | .stn _ _ | .rdl _ _ | .cmp _ _ => none

/-- The registers a command's result depends on (10_state.md R31); WRL keeps the other limbs of its
destination, so the result in `vd` depends on `vd`. -/
def reads : Instr → List VReg
  | .zero _ | .ldn _ _ | .ldnt _ _ => []
  | .wrl vd _ => [vd]
  | .stn vs1 _ | .rdl vs1 _ => [vs1]
  | .inc _ vs1 | .dec _ vs1 | .not _ vs1 => [vs1]
  | .cmp vs1 vs2 => [vs1, vs2]
  | .add _ vs1 vs2 | .sub _ vs1 vs2 | .mul _ vs1 vs2 | .div _ vs1 vs2 | .mod _ vs1 vs2 => [vs1, vs2]
  | .and _ vs1 vs2 | .or _ vs1 vs2 | .xor _ vs1 vs2 | .shl _ vs1 vs2 | .shr _ vs1 vs2 => [vs1, vs2]

/-- The same command with another destination register. None for the commands that write no register,
and for WRL, which keeps the other limbs of the register it names (70_reset_and_hazards.md R215). -/
def Instr.retarget (e : VReg) : Instr → Option Instr
  | .zero _ => some (.zero e)
  | .ldn _ sz => some (.ldn e sz)
  | .ldnt _ sz => some (.ldnt e sz)
  | .add _ a b => some (.add e a b)
  | .sub _ a b => some (.sub e a b)
  | .mul _ a b => some (.mul e a b)
  | .div _ a b => some (.div e a b)
  | .mod _ a b => some (.mod e a b)
  | .inc _ a => some (.inc e a)
  | .dec _ a => some (.dec e a)
  | .and _ a b => some (.and e a b)
  | .or _ a b => some (.or e a b)
  | .xor _ a b => some (.xor e a b)
  | .not _ a => some (.not e a)
  | .shl _ a b => some (.shl e a b)
  | .shr _ a b => some (.shr e a b)
  | .stn _ _ | .rdl _ _ | .cmp _ _ | .wrl _ _ => none

/-- STN, RDL and CMP return data (30_encoding.md R71). -/
def returnsData : Instr → Bool
  | .stn _ _ | .rdl _ _ | .cmp _ _ => true
  | _ => false

/-- The commands that can fail once decoded: DIV, MOD, LDN, WRL (60_exceptions.md R191, R196). -/
def canFail : Instr → Bool
  | .div _ _ _ | .mod _ _ _ | .ldn _ _ | .wrl _ _ => true
  | _ => false

/-- The commands whose result may depend on W: RDL and WRL (00_scope.md R5, R12). -/
def seesLimbs : Instr → Bool
  | .rdl _ _ | .wrl _ _ => true
  | _ => false

/-- The relation of two values that an operator stands for (44_compare.md R157). -/
def RelationHolds (rel : Relation) (a b : Nat) : Prop :=
  match rel with
  | .eq => a = b
  | .ne => a ≠ b
  | .lt => a < b
  | .le => a ≤ b
  | .gt => b < a
  | .ge => b ≤ a

/-! ### Safe states -/

/-- The invariant of every run: every register holds a value in [0, 2^N - 1] (10_state.md R23). -/
def InvariantB (s : State) : Prop := ∀ r : VReg, s.v r < 2 ^ s.cfg.N

/-- The state can take the command `c` now: the engine can be built, no reset is asked for, and `c` is
the oldest issued command. -/
def Ready (s : State) (c : Command) (rest : List Command) : Prop :=
  s.cfg.ok = true ∧ s.resetReq = false ∧ s.pending = c :: rest

/-- `k` steps, stopping at the first fault or refusal. -/
def runFor : Nat → State → Host.Outcome State Fault Refusal
  | 0, s => .next s
  | k + 1, s =>
    match step s with
    | .next t => runFor k t
    | .fault f => .fault f
    | .refused f => .refused f

end Sys2Proof
end

