-- ==== Sys2Proof/Certificates/Slice0/Obligations.lean ====
section
/-! DEFINITION. The statements about the model, for the provers. -/

open Sys2Proof Sys2Proof.Machine

/-! ### Encoding and decoding -/

/-- Words written out in the spec's examples decode to the commands they stand for (N = 256, W = 32;
96_test_programs.md section 8 and the examples of the command rules). -/
def Obligations.SampleWordsDecode : Prop :=
  decode ⟨256, .w32⟩ 0x01201000 = some (.add 2 0 1) ∧ decode ⟨256, .w32⟩ 0x04DBC000 = some (.div 13 11 12) ∧
  decode ⟨256, .w32⟩ 0x06440000 = some (.inc 4 4) ∧ decode ⟨256, .w32⟩ 0x08012000 = some (.cmp 1 2) ∧
  decode ⟨256, .w32⟩ 0x14201000 = some (.shl 2 0 1) ∧ decode ⟨256, .w32⟩ 0x21800001 = some (.ldn 8 .b16) ∧
  decode ⟨256, .w32⟩ 0x24010007 = some (.rdl 1 7) ∧ decode ⟨256, .w32⟩ 0x24010008 = none ∧
  decode ⟨256, .w32⟩ 0x06441000 = none ∧ decode ⟨256, .w32⟩ 0x00000000 = none

/-- The word of every command an engine has decodes to that command: no bit of an encoding is dropped. -/
def Obligations.DecodeOfEncode : Prop :=
  ∀ (c : Config) (i : Instr), i.wellFormed c = true → decode c (encode i) = some i

/-- Every word that decodes is the word of the command it decodes to: one word per command
(92_eei_decisions.md D14). -/
def Obligations.EncodeOfDecode : Prop :=
  ∀ (c : Config) (w : Word) (i : Instr), decode c w = some i → encode i = w ∧ i.wellFormed c = true

/-- A word decodes exactly when it fits a row of the opcode table and, for RDL and WRL, its index is
below L (R67). -/
def Obligations.DecodesExactlyTheTable : Prop :=
  ∀ (c : Config) (w : Word), (∃ i, decode c w = some i) ↔ Spells c w

/-! ### The step -/

/-- A step executes the oldest issued command when its word decodes. -/
def Obligations.StepRunsDecodedCommand : Prop :=
  ∀ (s : State) (c : Command) (rest : List Command) (i : Instr),
    Ready s c rest → decode s.cfg c.word = some i → step s = exec i (presented s c rest)

/-- Every opcode outside the 20 of R64 is illegal whatever the other fields hold (R66). -/
def Obligations.UnassignedOpcodeFails : Prop :=
  ∀ (s : State) (c : Command) (rest : List Command), Ready s c rest →
    (let o := c.word.toNat / 2 ^ 24
     o = 0x00 ∨ (0x09 ≤ o ∧ o ≤ 0x0F) ∨ (0x16 ≤ o ∧ o ≤ 0x1F) ∨ 0x26 ≤ o) →
    ∃ t, step s = .next t ∧ Failed (presented s c rest) .illegal (c.word.extractLsb 31 24) t

/-- ILLEGAL is raised exactly for the words that spell no command (R195). -/
def Obligations.IllegalExactlyWhenNoCommandIsSpelled : Prop :=
  ∀ (s : State) (c : Command) (rest : List Command), Ready s c rest →
    (¬ Spells s.cfg c.word →
      ∃ t, step s = .next t ∧ Failed (presented s c rest) .illegal (c.word.extractLsb 31 24) t) ∧
    (Spells s.cfg c.word →
      ∃ t r, step s = .next t ∧ t.responses = s.responses ++ [r] ∧ r.err ≠ .illegal)

/-- Every command gets exactly one response, whose `op` is the command's opcode byte; its `dout` is the
data result of STN, RDL and CMP, and 0 for every other and every failed command; `err` is 0, 1, 2 or 3
(R71). -/
def Obligations.EveryCommandIsAnsweredOnce : Prop :=
  (Err.code .ok = 0 ∧ Err.code .divzero = 1 ∧ Err.code .trunc = 2 ∧ Err.code .illegal = 3) ∧
  ∀ (s : State) (c : Command) (rest : List Command), Ready s c rest →
    ∃ t r, step s = .next t ∧ t.responses = s.responses ++ [r] ∧ t.pending = rest ∧
      r.op = c.word.extractLsb 31 24 ∧
      (r.dout ≠ 0 → r.err = .ok ∧ ∃ i, decode s.cfg c.word = some i ∧ returnsData i = true) ∧
      (∀ vs1 sz, decode s.cfg c.word = some (.stn vs1 sz) →
        r.err = .ok ∧ r.dout.toNat = s.v vs1 % 2 ^ (8 * 2 ^ sz.sel.toNat)) ∧
      (∀ vs1 idx, decode s.cfg c.word = some (.rdl vs1 idx) →
        r.err = .ok ∧ r.dout.toNat = s.v vs1 / 2 ^ (s.cfg.W * idx) % 2 ^ s.cfg.W) ∧
      (∀ vs1 vs2, decode s.cfg c.word = some (.cmp vs1 vs2) →
        r.err = .ok ∧ r.dout.toNat = if s.v vs1 = s.v vs2 then 0 else if s.v vs1 < s.v vs2 then 1 else 2)

/-- A list of issued commands is answered completely and in issue order, whatever the operands, when no
reset intervenes (R219; R213). -/
def Obligations.RunAnswersAllCommandsInOrder : Prop :=
  ∀ s : State, s.cfg.ok = true → s.resetReq = false →
    ∃ (t : State) (rs : List Response), runFor s.pending.length s = .next t ∧
      t.responses = s.responses ++ rs ∧
      rs.map (·.op) = s.pending.map (fun c => c.word.extractLsb 31 24) ∧ t.pending = []

/-- A reset clears every register, abandons every unanswered command, and keeps the responses already
returned and the build parameters (R210, R211, R212). The moment it lands, between two steps, is the
model's choice (log 5). -/
def Obligations.ResetClearsRegisters : Prop :=
  ∀ s : State, s.cfg.ok = true → s.resetReq = true →
    ∃ t, step s = .next t ∧ (∀ r, t.v r = 0) ∧ t.pending = [] ∧ t.responses = s.responses ∧
      t.cfg = s.cfg ∧ t.resetReq = false

/-- With no command issued and no reset asked for, a step changes nothing: the model's choice (log 4), since
"the only events are commands and their responses" (R197). -/
def Obligations.NothingHappensWithoutACommand : Prop :=
  ∀ s : State, s.cfg.ok = true → s.resetReq = false → s.pending = [] → step s = .next s

/-- A configuration outside `1 <= N <= 4096 * W` is refused, and every other one is run
(93_implementation_defined.md U5; log 6). -/
def Obligations.OnlyImpossibleBuildsAreRefused : Prop :=
  ∀ s : State,
    (¬ (1 ≤ s.cfg.N ∧ s.cfg.N ≤ 4096 * s.cfg.limb.bits) → step s = .refused .configOutOfBounds) ∧
    (1 ≤ s.cfg.N ∧ s.cfg.N ≤ 4096 * s.cfg.limb.bits → ∃ t, step s = .next t)

/-! ### Invariants and whole-machine rules -/

/-- Every step keeps every register in [0, 2^N - 1] (R23). -/
def Obligations.StepKeepsRegistersInRange : Prop :=
  ∀ s t : State, InvariantB s → step s = .next t → InvariantB t

/-- At reset and after every step, completed or failed, the top limb of every register has no bit at or
above position T, and the register is its limbs (R22, R21). -/
def Obligations.TopLimbStaysCanonical : Prop :=
  (∀ (c : Config) (r : VReg), (State.resetOf c).memRead r (c.L - 1) ≤ c.topMask) ∧
  ∀ s t : State, InvariantB s → step s = .next t →
    ∀ r : VReg, t.memRead r (t.cfg.L - 1) ≤ t.cfg.topMask ∧ limbsVal t.cfg.W (limbs t.cfg (t.v r)) = t.v r

/-- After reset every register, and every limb, of every engine holds zero, and the invariant holds
(R30). -/
def Obligations.ResetStateIsZero : Prop :=
  (∀ (c : Config) (r : VReg), (State.resetOf c).v r = 0 ∧ ∀ i, (State.resetOf c).memRead r i = 0) ∧
  (∀ c : Config, InvariantB (State.resetOf c)) ∧
  (∀ r : VReg, State.reset.v r = 0) ∧ InvariantB State.reset

/-- No step changes N or W (R4, R5). -/
def Obligations.StepKeepsBuildParameters : Prop :=
  ∀ s t : State, step s = .next t → t.cfg.N = s.cfg.N ∧ t.cfg.W = s.cfg.W

/-- The derived constants of an engine that can be built (R6). -/
def Obligations.DerivedConstants : Prop :=
  ∀ c : Config, c.ok = true →
    1 ≤ c.L ∧ c.L ≤ 4096 ∧ (c.L - 1) * c.W < c.N ∧ c.N ≤ c.L * c.W ∧
    c.N = (c.L - 1) * c.W + c.T ∧ 1 ≤ c.T ∧ c.T ≤ c.W ∧ (c.T = c.W ↔ c.W ∣ c.N) ∧
    c.limbMax = 2 ^ c.W - 1 ∧ c.topMask = 2 ^ c.T - 1 ∧ c.maxVal = 2 ^ c.N - 1 ∧
    (c.W ∣ c.N → c.topMask = c.limbMax ∧ ∀ x, x ≤ c.limbMax → x &&& c.topMask = x)

/-- A failed command changes no register and no limb and answers its own opcode and `dout = 0`; the next
command executes exactly as if the failed one had not been issued (R190). -/
def Obligations.FailedCommandLeavesNoTrace : Prop :=
  ∀ (s t : State) (r : Response), step s = .next t → t.responses = s.responses ++ [r] → r.err ≠ .ok →
    (∀ q, t.v q = s.v q ∧ ∀ j, t.memRead q j = s.memRead q j) ∧
    (∃ c, s.pending.head? = some c ∧ r.op = c.word.extractLsb 31 24) ∧
    r.dout = 0 ∧ t.cfg = s.cfg ∧ t.resetReq = s.resetReq ∧ t.pending = s.pending.tail ∧
    ∀ t' : State, step t = .next t' →
      ∃ (u' : State) (rs : List Response), step { s with pending := s.pending.tail } = .next u' ∧
        u'.regs = t'.regs ∧ u'.pending = t'.pending ∧
        t'.responses = t.responses ++ rs ∧ u'.responses = s.responses ++ rs

/-- The complete list of errors and when each is raised (R191). -/
def Obligations.ErrorsHaveExactlyTheListedCauses : Prop :=
  ∀ (s : State) (c : Command) (rest : List Command), Ready s c rest →
    ∃ t r, step s = .next t ∧ t.responses = s.responses ++ [r] ∧ r.op = c.word.extractLsb 31 24 ∧
      (r.err = .divzero ↔ ∃ vd vs1 vs2, (decode s.cfg c.word = some (.div vd vs1 vs2) ∨
          decode s.cfg c.word = some (.mod vd vs1 vs2)) ∧ s.v vs2 = 0) ∧
      (r.err = .trunc ↔
        (∃ vd sz, decode s.cfg c.word = some (.ldn vd sz) ∧
          2 ^ s.cfg.N ≤ c.din.toNat % 2 ^ (8 * 2 ^ sz.sel.toNat)) ∨
        (∃ vd idx, decode s.cfg c.word = some (.wrl vd idx) ∧ idx.val = s.cfg.L - 1 ∧
          s.cfg.topMask < c.din.toNat % 2 ^ s.cfg.W)) ∧
      (r.err = .illegal ↔ decode s.cfg c.word = none)

/-- Overflow and truncation are no errors: every command but DIV, MOD, LDN and WRL completes for all
operand values once decoded, and what it answers does not tell whether the result wrapped (R196). -/
def Obligations.OverflowIsNoError : Prop :=
  ∀ (i : Instr) (s : State), i.wellFormed s.cfg = true → canFail i = false →
    ∃ t d, exec i s = .next t ∧ t.responses = s.responses ++ [⟨.ok, i.opcode, d⟩] ∧
      (returnsData i = false → d = 0) ∧ (∀ q, writes i ≠ some q → t.v q = s.v q) ∧ SameElse s t

/-- A command writes its destination register and no other; STN, RDL and CMP write none; a command that
fails writes none; everything else of the state but the responses is unchanged (R31). -/
def Obligations.OnlyTheDestinationIsWritten : Prop :=
  ∀ (i : Instr) (s : State), ∃ t r, exec i s = .next t ∧ t.responses = s.responses ++ [r] ∧
    (∀ q, writes i ≠ some q → t.v q = s.v q ∧ ∀ j, t.memRead q j = s.memRead q j) ∧
    (r.err ≠ .ok → ∀ q, t.v q = s.v q) ∧ SameElse s t

/-- The limb width shows in no result of the 18 commands other than RDL and WRL (R5, R12). -/
def Obligations.LimbWidthShowsOnlyInLimbAccess : Prop :=
  ∀ (i : Instr) (s u : State), seesLimbs i = false →
    s.cfg.N = u.cfg.N → s.regs = u.regs → s.din = u.din →
    ∃ (t t' : State) (r : Response), exec i s = .next t ∧ exec i u = .next t' ∧ t.regs = t'.regs ∧
      t.responses = s.responses ++ [r] ∧ t'.responses = u.responses ++ [r]

/-- A command's response and the value it writes depend on the registers it names as operands, its
data-in value, N and W, and on nothing else (R12, R31). -/
def Obligations.ResultDependsOnNamedOperandsOnly : Prop :=
  ∀ (i : Instr) (s u : State), s.cfg = u.cfg → s.din = u.din → (∀ q ∈ reads i, s.v q = u.v q) →
    ∃ (t t' : State) (r : Response), exec i s = .next t ∧ exec i u = .next t' ∧
      t.responses = s.responses ++ [r] ∧ t'.responses = u.responses ++ [r] ∧
      (r.err = .ok → ∀ d, writes i = some d → t.v d = t'.v d)

/-- The destination may be one source or both: the result is the one the command with any other
destination register leaves there, and so is the response (R215). -/
def Obligations.OverlapIsComputeThenReplace : Prop :=
  ∀ (i j : Instr) (d e : VReg) (s : State), writes i = some d → Instr.retarget e i = some j →
    ∃ (t u : State) (r : Response), exec i s = .next t ∧ exec j s = .next u ∧
      t.responses = s.responses ++ [r] ∧ u.responses = s.responses ++ [r] ∧
      (r.err = .ok → t.v d = u.v e ∧ (∀ q, q ≠ d → t.v q = s.v q) ∧ ∀ q, q ≠ e → u.v q = s.v q)

/-! ### Construction, conversion, limb access -/

/-- ZERO vd (R90). -/
def Obligations.ZeroClearsItsRegister : Prop :=
  ∀ (s : State) (vd : VReg),
    decode s.cfg (hexWord 0x20 vd 0 0 0) = some (.zero vd) ∧
    ∃ t, exec (.zero vd) s = .next t ∧ Wrote s vd 0 0x20 t

/-- LDN.w vd, #x: the value is loaded exactly, or the command fails with TRUNC when it is 2^N or more,
whatever the width (R91). -/
def Obligations.LdnLoadsExactlyOrFails : Prop :=
  ∀ (s : State) (vd : VReg) (sz : NativeSize),
    decode s.cfg (hexWord 0x21 vd 0 0 sz.sel.toNat) = some (.ldn vd sz) ∧
    let x := s.din.toNat % 2 ^ (8 * 2 ^ sz.sel.toNat)
    (x < 2 ^ s.cfg.N → ∃ t, exec (.ldn vd sz) s = .next t ∧ Wrote s vd x 0x21 t) ∧
    (2 ^ s.cfg.N ≤ x → ∃ t, exec (.ldn vd sz) s = .next t ∧ Failed s .trunc 0x21 t)

/-- LDNT.w vd, #x (R92). -/
def Obligations.LdntLoadsModulo : Prop :=
  ∀ (s : State) (vd : VReg) (sz : NativeSize),
    decode s.cfg (hexWord 0x22 vd 0 0 sz.sel.toNat) = some (.ldnt vd sz) ∧
    ∃ t, exec (.ldnt vd sz) s = .next t ∧
      Wrote s vd (s.din.toNat % 2 ^ (8 * 2 ^ sz.sel.toNat) % 2 ^ s.cfg.N) 0x22 t

/-- STN.w vs1 (R93). -/
def Obligations.StnReturnsLowBits : Prop :=
  ∀ (s : State) (vs1 : VReg) (sz : NativeSize),
    decode s.cfg (hexWord 0x23 0 vs1 0 sz.sel.toNat) = some (.stn vs1 sz) ∧
    ∃ t d, exec (.stn vs1 sz) s = .next t ∧ Answered s d 0x23 t ∧
      d.toNat = s.v vs1 % 2 ^ (8 * 2 ^ sz.sel.toNat)

/-- RDL vs1, idx: a limb below L is returned, zero extended; the word of an index of L or more does not
decode, and the step on it fails with ILLEGAL (R95). -/
def Obligations.RdlReturnsOneLimb : Prop :=
  ∀ (s : State) (vs1 : VReg) (idx : Fin 4096),
    (idx.val < s.cfg.L →
      decode s.cfg (hexWord 0x24 0 vs1 0 idx) = some (.rdl vs1 idx) ∧
      ∃ t d, exec (.rdl vs1 idx) s = .next t ∧ Answered s d 0x24 t ∧
        d.toNat = s.v vs1 / 2 ^ (s.cfg.W * idx) % 2 ^ s.cfg.W) ∧
    (s.cfg.L ≤ idx.val →
      decode s.cfg (hexWord 0x24 0 vs1 0 idx) = none ∧
      ∀ (c : Command) (rest : List Command), Ready s c rest → c.word = hexWord 0x24 0 vs1 0 idx →
        ∃ t, step s = .next t ∧ Failed (presented s c rest) .illegal 0x24 t)

/-- WRL vd, idx, #x: the limb becomes x and every other limb of every register reads as before; an index
of L or more does not decode, and the step on its word fails with ILLEGAL; a top limb above TOPMASK is TRUNC
(R96). -/
def Obligations.WrlReplacesOneLimb : Prop :=
  ∀ (s : State) (vd : VReg) (idx : Fin 4096),
    let x := s.din.toNat % 2 ^ s.cfg.W
    (idx.val < s.cfg.L → ¬ (idx.val = s.cfg.L - 1 ∧ s.cfg.topMask < x) →
      decode s.cfg (hexWord 0x25 vd 0 0 idx) = some (.wrl vd idx) ∧
      ∃ t, exec (.wrl vd idx) s = .next t ∧
        Wrote s vd (s.v vd - s.memRead vd idx * 2 ^ (s.cfg.W * idx) + x * 2 ^ (s.cfg.W * idx)) 0x25 t ∧
        t.memRead vd idx = x ∧ ∀ q j, ¬ (q = vd ∧ j = idx.val) → t.memRead q j = s.memRead q j) ∧
    (idx.val = s.cfg.L - 1 → idx.val < s.cfg.L → s.cfg.topMask < x →
      decode s.cfg (hexWord 0x25 vd 0 0 idx) = some (.wrl vd idx) ∧
      ∃ t, exec (.wrl vd idx) s = .next t ∧ Failed s .trunc 0x25 t) ∧
    (s.cfg.L ≤ idx.val →
      decode s.cfg (hexWord 0x25 vd 0 0 idx) = none ∧
      ∀ (c : Command) (rest : List Command), Ready s c rest → c.word = hexWord 0x25 vd 0 0 idx →
        ∃ t, step s = .next t ∧ Failed (presented s c rest) .illegal 0x25 t)

/-- The terms RDL and WRL with an index of L or more, which no word decodes to, answer ILLEGAL as well and
write nothing: the model's choice (log 8). -/
def Obligations.OutOfRangeLimbTermsAnswerIllegal : Prop :=
  ∀ (s : State) (r : VReg) (idx : Fin 4096), s.cfg.L ≤ idx.val →
    (∀ w, decode s.cfg w ≠ some (.rdl r idx) ∧ decode s.cfg w ≠ some (.wrl r idx)) ∧
    (∃ t, exec (.rdl r idx) s = .next t ∧ Failed s .illegal 0x24 t) ∧
    ∃ t, exec (.wrl r idx) s = .next t ∧ Failed s .illegal 0x25 t

/-- What LDN loads, STN of the same width returns: the spec's own inference (40_construct_convert.md
section 7). -/
def Obligations.NativeRoundTrip : Prop :=
  ∀ (s : State) (vd : VReg) (sz : NativeSize) (x : Nat),
    x = s.din.toNat % 2 ^ (8 * 2 ^ sz.sel.toNat) → x < 2 ^ s.cfg.N →
    ∃ t u d, exec (.ldn vd sz) s = .next t ∧ Wrote s vd x 0x21 t ∧
      exec (.stn vd sz) t = .next u ∧ Answered t d 0x23 u ∧ d.toNat = x

/-- After a WRL that completes, RDL of the same limb returns the value written and RDL of another limb
of the same register what it returned before: the spec's own inference (40_construct_convert.md section
7). -/
def Obligations.LimbRoundTrip : Prop :=
  ∀ (s : State) (vd : VReg) (i j : Fin 4096), i.val < s.cfg.L → j.val < s.cfg.L →
    ¬ (i.val = s.cfg.L - 1 ∧ s.cfg.topMask < s.din.toNat % 2 ^ s.cfg.W) →
    ∃ t u, exec (.wrl vd i) s = .next t ∧ t.responses = s.responses ++ [⟨.ok, 0x25, 0⟩] ∧
      exec (.rdl vd j) t = .next u ∧
      (j = i → ∃ d, Answered t d 0x24 u ∧ d.toNat = s.din.toNat % 2 ^ s.cfg.W) ∧
      (j ≠ i → ∃ d u', exec (.rdl vd j) s = .next u' ∧ Answered s d 0x24 u' ∧ Answered t d 0x24 u)

/-- Any value can be put in a register by ZERO and one WRL per limb, in any order of the limbs, none of
which fails: the spec's own inference (40_construct_convert.md section 7). -/
def Obligations.AnyValueIsBuiltFromLimbs : Prop :=
  ∀ (s : State) (vd : VReg) (a : Nat) (order : List Nat),
    s.cfg.ok = true → s.resetReq = false → a < 2 ^ s.cfg.N → order.Perm (List.range s.cfg.L) →
    s.pending = ⟨hexWord 0x20 vd 0 0 0, 0⟩ ::
      order.map (fun i => ⟨hexWord 0x25 vd 0 0 i, BitVec.ofNat 64 (a / 2 ^ (s.cfg.W * i) % 2 ^ s.cfg.W)⟩) →
    ∃ (t : State) (rs : List Response), runFor (order.length + 1) s = .next t ∧
      t.v vd = a ∧ (∀ q, q ≠ vd → t.v q = s.v q) ∧ t.pending = [] ∧
      t.responses = s.responses ++ rs ∧ rs.length = order.length + 1 ∧ ∀ r ∈ rs, r.err = .ok

/-- The limb sequence of a value in range has L limbs of W bits, its top limb at most TOPMASK, and is
the value again when read as a number: the spec's own inference (00_scope.md section 6, after R10). -/
def Obligations.LimbsRepresentTheValue : Prop :=
  ∀ (c : Config) (x : Nat), c.ok = true → x < 2 ^ c.N →
    (limbs c x).length = c.L ∧ (∀ a ∈ limbs c x, a ≤ c.limbMax) ∧
    (limbs c x).getLastD 0 ≤ c.topMask ∧ limbsVal c.W (limbs c x) = x

/-! ### Addition and subtraction -/

/-- ADD vd, vs1, vs2 (R111). -/
def Obligations.AddWrapsModulo : Prop :=
  ∀ (s : State) (vd vs1 vs2 : VReg),
    decode s.cfg (hexWord 0x01 vd vs1 vs2 0) = some (.add vd vs1 vs2) ∧
    ∃ t, exec (.add vd vs1 vs2) s = .next t ∧ Wrote s vd ((s.v vs1 + s.v vs2) % 2 ^ s.cfg.N) 0x01 t

/-- SUB vd, vs1, vs2 (R113). -/
def Obligations.SubWrapsModulo : Prop :=
  ∀ (s : State) (vd vs1 vs2 : VReg), InvariantB s →
    decode s.cfg (hexWord 0x02 vd vs1 vs2 0) = some (.sub vd vs1 vs2) ∧
    ∃ t, exec (.sub vd vs1 vs2) s = .next t ∧
      Wrote s vd (if s.v vs2 ≤ s.v vs1 then s.v vs1 - s.v vs2 else 2 ^ s.cfg.N - (s.v vs2 - s.v vs1)) 0x02 t

/-- INC and DEC: plus and minus one; the maximum value goes to 0 and 0 to the maximum value (R115, R116). -/
def Obligations.IncDecWrapModulo : Prop :=
  ∀ (s : State) (vd vs1 : VReg), InvariantB s →
    (decode s.cfg (hexWord 0x06 vd vs1 0 0) = some (.inc vd vs1) ∧
      ∃ t, exec (.inc vd vs1) s = .next t ∧
        Wrote s vd (if s.v vs1 = 2 ^ s.cfg.N - 1 then 0 else s.v vs1 + 1) 0x06 t) ∧
    (decode s.cfg (hexWord 0x07 vd vs1 0 0) = some (.dec vd vs1) ∧
      ∃ t, exec (.dec vd vs1) s = .next t ∧
        Wrote s vd (if s.v vs1 = 0 then 2 ^ s.cfg.N - 1 else s.v vs1 - 1) 0x07 t)

/-- The loop of R112 computes ADD: before masking, the limbs and the final carry are the exact sum; after
it, the sum modulo 2^N. The spec marks this as its own inference: "The result equals rule R111's [derived
...]" (41_addsub.md section 2); the limb primitives are R110, which it takes from general knowledge (log
12). -/
def Obligations.RippleCarryComputesAdd : Prop :=
  ∀ (c : Config) (a b : Nat), c.ok = true → a < 2 ^ c.N → b < 2 ^ c.N →
    (let (r, carry) := rippleCarry c.W (limbs c a) (limbs c b) 0
     limbsVal c.W r + carry * 2 ^ (c.W * c.L) = a + b ∧ carry ≤ 1) ∧
    addLimbs c (limbs c a) (limbs c b) = limbs c ((a + b) % 2 ^ c.N)

/-- The loop of R114 computes SUB: before masking, the limbs less the final borrow are the exact
difference; after it, the difference modulo 2^N. The spec marks this as its own inference: "The result
equals rule R113's [derived ...]" (41_addsub.md section 3); the limb primitives as above (log 12). -/
def Obligations.RippleBorrowComputesSub : Prop :=
  ∀ (c : Config) (a b : Nat), c.ok = true → a < 2 ^ c.N → b < 2 ^ c.N →
    (let (r, borrow) := rippleBorrow c.W (limbs c a) (limbs c b) 0
     limbsVal c.W r + b = a + borrow * 2 ^ (c.W * c.L) ∧ borrow ≤ 1) ∧
    subLimbs c (limbs c a) (limbs c b) = limbs c ((a + (2 ^ c.N - b)) % 2 ^ c.N)

/-- Laws of addition and subtraction; the spec marks those after the third as its own inference
(41_addsub.md section 5). -/
def Obligations.AddSubLaws : Prop :=
  ∀ (N a b d : Nat), a < 2 ^ N → b < 2 ^ N → d < 2 ^ N →
    addWrap N a b = addWrap N b a ∧
    addWrap N (addWrap N a b) d = addWrap N a (addWrap N b d) ∧
    addWrap N (2 ^ N - 1) 1 = 0 ∧ subWrap N 0 1 = 2 ^ N - 1 ∧
    addWrap N (subWrap N a b) b = a ∧ subWrap N (addWrap N a b) b = a ∧
    subWrap N a b = addWrap N a ((2 ^ N - b) % 2 ^ N) ∧
    subWrap N (addWrap N a 1) 1 = a ∧ addWrap N (subWrap N a 1) 1 = a

/-! ### Multiplication and division -/

/-- MUL vd, vs1, vs2 (R130). -/
def Obligations.MulWrapsModulo : Prop :=
  ∀ (s : State) (vd vs1 vs2 : VReg),
    decode s.cfg (hexWord 0x03 vd vs1 vs2 0) = some (.mul vd vs1 vs2) ∧
    ∃ t, exec (.mul vd vs1 vs2) s = .next t ∧ Wrote s vd (s.v vs1 * s.v vs2 % 2 ^ s.cfg.N) 0x03 t

/-- The schoolbook multiplier computes MUL: the 2L-limb intermediate is the exact product, its limbs
fit W bits, and truncated and masked it is the product modulo 2^N. The spec marks this as its own
inference: "The result equals rule R130's [derived ...]" (42_mul.md section 3). -/
def Obligations.SchoolbookComputesMul : Prop :=
  ∀ (c : Config) (a b : Nat), c.ok = true → a < 2 ^ c.N → b < 2 ^ c.N →
    limbsVal c.W (mulIntermediate c (limbs c a) (limbs c b)) = a * b ∧
    (mulIntermediate c (limbs c a) (limbs c b)).length = 2 * c.L ∧
    (∀ p ∈ mulIntermediate c (limbs c a) (limbs c b), p ≤ c.limbMax) ∧
    mulLimbs c (limbs c a) (limbs c b) = limbs c (a * b % 2 ^ c.N)

/-- Laws of multiplication; the spec marks all but the first as its own inference (42_mul.md section 4). -/
def Obligations.MulLaws : Prop :=
  ∀ (N a b d k : Nat), a < 2 ^ N → b < 2 ^ N → d < 2 ^ N → k < N →
    mulWrap N a b = mulWrap N b a ∧
    mulWrap N (mulWrap N a b) d = mulWrap N a (mulWrap N b d) ∧
    mulWrap N a (addWrap N b d) = addWrap N (mulWrap N a b) (mulWrap N a d) ∧
    mulWrap N a (2 ^ k) = shlVal N a k

/-- DIV vd, vs1, vs2: the quotient of the unique pair with a = q * d + r, r < d; DIVZERO for a zero
divisor, whatever the dividend (R143, R140, R141). -/
def Obligations.DivWritesTheQuotient : Prop :=
  ∀ (s : State) (vd vs1 vs2 : VReg),
    decode s.cfg (hexWord 0x04 vd vs1 vs2 0) = some (.div vd vs1 vs2) ∧
    (s.v vs2 ≠ 0 → ∃ t q r, exec (.div vd vs1 vs2) s = .next t ∧
      s.v vs1 = q * s.v vs2 + r ∧ r < s.v vs2 ∧ Wrote s vd q 0x04 t) ∧
    (s.v vs2 = 0 → ∃ t, exec (.div vd vs1 vs2) s = .next t ∧ Failed s .divzero 0x04 t)

/-- MOD vd, vs1, vs2: the remainder of the same pair; DIVZERO for a zero divisor (R144, R140, R141). -/
def Obligations.ModWritesTheRemainder : Prop :=
  ∀ (s : State) (vd vs1 vs2 : VReg),
    decode s.cfg (hexWord 0x05 vd vs1 vs2 0) = some (.mod vd vs1 vs2) ∧
    (s.v vs2 ≠ 0 → ∃ t q r, exec (.mod vd vs1 vs2) s = .next t ∧
      s.v vs1 = q * s.v vs2 + r ∧ r < s.v vs2 ∧ Wrote s vd r 0x05 t) ∧
    (s.v vs2 = 0 → ∃ t, exec (.mod vd vs1 vs2) s = .next t ∧ Failed s .divzero 0x05 t)

/-- Bit-at-a-time long division delivers quotient and remainder, for any nonzero divisor. After the
iteration for bit i the loop from (0, 0) holds the remainder of `a div 2^i` and the bits from i up of its
quotient; so the trial remainder of the next iteration, before its subtraction, is at most the dividend
prefix taken in and fits N bits, and the remaining iterations deliver the result. The spec marks the
loop's invariant and the bound as its own inference (43_divmod.md section 4). -/
def Obligations.LongDivisionComputesDivMod : Prop :=
  ∀ (N a d : Nat), a < 2 ^ N → 0 < d → d < 2 ^ N →
    longDivide N a d = (a / d, a % d) ∧
    (∀ i, i ≤ N → divBits a d i (N - i) (0, 0) = (a / 2 ^ i / d * 2 ^ i, a / 2 ^ i % d)) ∧
    ∀ i, i < N →
      let qr := divBits a d (i + 1) (N - (i + 1)) (0, 0)
      qr.2 ≤ a / 2 ^ (i + 1) ∧ trialRemainder a i qr.2 ≤ a / 2 ^ i ∧ trialRemainder a i qr.2 < 2 ^ N ∧
      divBits a d i (N - i) (0, 0) = divStep a d i qr ∧ divBits a d 0 (i + 1) qr = (a / d, a % d)

/-- Long division over limbs delivers the limbs of quotient and remainder: "Whatever the method, the
results are those of rule R140" (43_divmod.md section 4). -/
def Obligations.LimbDivisionComputesDivMod : Prop :=
  ∀ (c : Config) (a d : Nat), c.ok = true → a < 2 ^ c.N → 0 < d → d < 2 ^ c.N →
    divLimbs c (limbs c a) (limbs c d) = (limbs c (a / d), limbs c (a % d))

/-- The division identity on the results of DIV, MOD, MUL and ADD; that nothing wraps in it the spec
marks as its own inference (43_divmod.md section 5). -/
def Obligations.DivisionIdentity : Prop :=
  ∀ (N a d : Nat), a < 2 ^ N → 0 < d → d < 2 ^ N →
    addWrap N (mulWrap N (divmod a d).1 d) (divmod a d).2 = a ∧ (divmod a d).2 < d ∧
    (divmod a d).1 * d + (divmod a d).2 < 2 ^ N

/-! ### Comparison -/

/-- CMP vs1, vs2 (R155). -/
def Obligations.CmpReturnsThreeWayResult : Prop :=
  ∀ (s : State) (vs1 vs2 : VReg),
    decode s.cfg (hexWord 0x08 0 vs1 vs2 0) = some (.cmp vs1 vs2) ∧
    ∃ t d, exec (.cmp vs1 vs2) s = .next t ∧ Answered s d 0x08 t ∧
      d.toNat = if s.v vs1 = s.v vs2 then 0 else if s.v vs1 < s.v vs2 then 1 else 2

/-- The six relational operators on CMP's result are the relations of the two values (R157). -/
def Obligations.RelationalOperatorsFollowCmp : Prop :=
  ∀ (s : State) (vs1 vs2 : VReg),
    ∃ t d, exec (.cmp vs1 vs2) s = .next t ∧ Answered s d 0x08 t ∧
      (Relation.eq.onCmp d = true ↔ s.v vs1 = s.v vs2) ∧ (Relation.ne.onCmp d = true ↔ s.v vs1 ≠ s.v vs2) ∧
      (Relation.lt.onCmp d = true ↔ s.v vs1 < s.v vs2) ∧ (Relation.le.onCmp d = true ↔ s.v vs1 ≤ s.v vs2) ∧
      (Relation.gt.onCmp d = true ↔ s.v vs2 < s.v vs1) ∧ (Relation.ge.onCmp d = true ↔ s.v vs2 ≤ s.v vs1)

/-- The limb comparator orders the limb sequences as their values are ordered. The spec marks this as its
own inference: "The result equals rule R155's [derived ...]" (44_compare.md section 2). -/
def Obligations.LimbComparatorComputesCmp : Prop :=
  ∀ (c : Config) (a b : Nat), c.ok = true → a < 2 ^ c.N → b < 2 ^ c.N →
    (compareLimbs (limbs c a) (limbs c b) = .eq ↔ a = b) ∧
    (compareLimbs (limbs c a) (limbs c b) = .lt ↔ a < b) ∧
    (compareLimbs (limbs c a) (limbs c b) = .gt ↔ b < a)

/-- Laws of the order, and what a comparison says about a wrap: SUB wraps exactly when the minuend is
smaller, ADD exactly when the sum is below an operand. The spec marks them as its own inference
(44_compare.md section 4). -/
def Obligations.ComparisonTellsWraps : Prop :=
  ∀ (N a b : Nat), a < 2 ^ N → b < 2 ^ N →
    (threeWay a b = .lt ↔ threeWay b a = .gt) ∧ (threeWay a b = .eq ↔ threeWay b a = .eq) ∧
    (∀ d, threeWay a b = .lt → threeWay b d = .lt → threeWay a d = .lt) ∧
    ((subWrap N a b : Int) = (a : Int) - b ↔ threeWay a b ≠ .lt) ∧
    (addWrap N a b ≠ a + b ↔ threeWay (addWrap N a b) a = .lt) ∧
    (addWrap N a b ≠ a + b ↔ threeWay (addWrap N a b) b = .lt)

/-! ### Bitwise operators and shifts -/

/-- AND, OR, XOR: each result bit is the operation on the operand bits of the same position, and each
result limb the operation on the operand limbs of the same index (R171, R172, R173). -/
def Obligations.AndOrXorWorkBitByBit : Prop :=
  ∀ (s : State) (vd vs1 vs2 : VReg),
    (decode s.cfg (hexWord 0x10 vd vs1 vs2 0) = some (.and vd vs1 vs2) ∧
      ∃ t x, exec (.and vd vs1 vs2) s = .next t ∧ Wrote s vd x 0x10 t ∧
        (∀ i, x.testBit i = ((s.v vs1).testBit i && (s.v vs2).testBit i)) ∧
        limbs s.cfg x = andLimbs (limbs s.cfg (s.v vs1)) (limbs s.cfg (s.v vs2))) ∧
    (decode s.cfg (hexWord 0x11 vd vs1 vs2 0) = some (.or vd vs1 vs2) ∧
      ∃ t x, exec (.or vd vs1 vs2) s = .next t ∧ Wrote s vd x 0x11 t ∧
        (∀ i, x.testBit i = ((s.v vs1).testBit i || (s.v vs2).testBit i)) ∧
        limbs s.cfg x = orLimbs (limbs s.cfg (s.v vs1)) (limbs s.cfg (s.v vs2))) ∧
    (decode s.cfg (hexWord 0x12 vd vs1 vs2 0) = some (.xor vd vs1 vs2) ∧
      ∃ t x, exec (.xor vd vs1 vs2) s = .next t ∧ Wrote s vd x 0x12 t ∧
        (∀ i, x.testBit i = ((s.v vs1).testBit i != (s.v vs2).testBit i)) ∧
        limbs s.cfg x = xorLimbs (limbs s.cfg (s.v vs1)) (limbs s.cfg (s.v vs2)))

/-- NOT vd, vs1: the complement of the N bit positions, nothing above them; at limb level every limb
complemented and the top one masked (R174). -/
def Obligations.NotComplementsWithinN : Prop :=
  ∀ (s : State) (vd vs1 : VReg), InvariantB s → s.cfg.ok = true →
    decode s.cfg (hexWord 0x13 vd vs1 0 0) = some (.not vd vs1) ∧
    ∃ t, exec (.not vd vs1) s = .next t ∧ Wrote s vd (2 ^ s.cfg.N - 1 - s.v vs1) 0x13 t ∧
      (∀ i, (t.v vd).testBit i = (decide (i < s.cfg.N) && !(s.v vs1).testBit i)) ∧
      limbs s.cfg (t.v vd) = notLimbs s.cfg (limbs s.cfg (s.v vs1))

/-- SHL vd, vs1, vs2: by the whole value of vs2, 0 when it is N or more (R175, R176). -/
def Obligations.ShlShiftsByTheWholeAmount : Prop :=
  ∀ (s : State) (vd vs1 vs2 : VReg),
    decode s.cfg (hexWord 0x14 vd vs1 vs2 0) = some (.shl vd vs1 vs2) ∧
    ∃ t x, exec (.shl vd vs1 vs2) s = .next t ∧ Wrote s vd x 0x14 t ∧
      x = (if s.cfg.N ≤ s.v vs2 then 0 else s.v vs1 * 2 ^ s.v vs2 % 2 ^ s.cfg.N) ∧
      ∀ i, x.testBit i = (decide (i < s.cfg.N) && decide (s.v vs2 ≤ i) && (s.v vs1).testBit (i - s.v vs2))

/-- SHR vd, vs1, vs2: logical, by the whole value of vs2, 0 when it is N or more (R175, R177). -/
def Obligations.ShrShiftsByTheWholeAmount : Prop :=
  ∀ (s : State) (vd vs1 vs2 : VReg), InvariantB s →
    decode s.cfg (hexWord 0x15 vd vs1 vs2 0) = some (.shr vd vs1 vs2) ∧
    ∃ t x, exec (.shr vd vs1 vs2) s = .next t ∧ Wrote s vd x 0x15 t ∧
      x = (if s.cfg.N ≤ s.v vs2 then 0 else s.v vs1 / 2 ^ s.v vs2) ∧
      ∀ i, x.testBit i = (s.v vs1).testBit (i + s.v vs2)

/-- The limb-level shifts compute the value-level ones for every amount below N. The spec marks this as
its own inference: "The results equal rules R176 and R177 [derived ...]" (45_bitwise.md section 4). -/
def Obligations.LimbShiftsComputeShifts : Prop :=
  ∀ (c : Config) (a k : Nat), c.ok = true → a < 2 ^ c.N → k < c.N →
    shlLimbs c (limbs c a) k = limbs c (a * 2 ^ k % 2 ^ c.N) ∧
    shrLimbs c (limbs c a) k = limbs c (a / 2 ^ k)

/-- Laws of the bitwise family that are not those of bitwise logic alone; the spec marks them as its own
inference (45_bitwise.md section 5). -/
def Obligations.BitwiseLaws : Prop :=
  ∀ (N a b k l : Nat), a < 2 ^ N → b < 2 ^ N →
    notVal N (a &&& b) = notVal N a ||| notVal N b ∧ notVal N (a ||| b) = notVal N a &&& notVal N b ∧
    notVal N (notVal N a) = a ∧
    addWrap N a b = addWrap N (a ^^^ b) (2 * (a &&& b)) ∧ a ||| b = (a ^^^ b) + (a &&& b) ∧
    shrVal N (shlVal N a k) k = (if k < N then a % 2 ^ (N - k) else 0) ∧
    shlVal N (shlVal N a k) l = shlVal N a (k + l) ∧ shrVal N (shrVal N a k) l = shrVal N a (k + l)

/-- The four rows of the pseudo-instructions: MOV copies; each compound assignment is its own operator on
`va` and `vb`, in place; `++a` and `--a` are INC and DEC in place; each relation is a CMP whose answer the
predicate reads (R70). -/
def Obligations.PseudoInstructionsExpand : Prop :=
  ∀ (s : State) (va vb : VReg),
    (∃ t, exec (Pseudo.mov va vb).expand s = .next t ∧ Wrote s va (s.v vb) 0x11 t) ∧
    ((∃ t, exec (Pseudo.assign .add va vb).expand s = .next t ∧
        Wrote s va ((s.v va + s.v vb) % 2 ^ s.cfg.N) 0x01 t) ∧
      (∃ t x, exec (Pseudo.assign .sub va vb).expand s = .next t ∧ Wrote s va x 0x02 t ∧
        (x : Int) = ((s.v va : Int) - s.v vb) % 2 ^ s.cfg.N) ∧
      (∃ t, exec (Pseudo.assign .mul va vb).expand s = .next t ∧
        Wrote s va (s.v va * s.v vb % 2 ^ s.cfg.N) 0x03 t) ∧
      (∃ t, exec (Pseudo.assign .div va vb).expand s = .next t ∧
        if s.v vb = 0 then Failed s .divzero 0x04 t else Wrote s va (s.v va / s.v vb) 0x04 t) ∧
      (∃ t, exec (Pseudo.assign .mod va vb).expand s = .next t ∧
        if s.v vb = 0 then Failed s .divzero 0x05 t else Wrote s va (s.v va % s.v vb) 0x05 t) ∧
      (∃ t, exec (Pseudo.assign .and va vb).expand s = .next t ∧ Wrote s va (s.v va &&& s.v vb) 0x10 t) ∧
      (∃ t, exec (Pseudo.assign .or va vb).expand s = .next t ∧ Wrote s va (s.v va ||| s.v vb) 0x11 t) ∧
      (∃ t, exec (Pseudo.assign .xor va vb).expand s = .next t ∧ Wrote s va (s.v va ^^^ s.v vb) 0x12 t) ∧
      (∃ t, exec (Pseudo.assign .shl va vb).expand s = .next t ∧
        Wrote s va (if s.cfg.N ≤ s.v vb then 0 else s.v va * 2 ^ s.v vb % 2 ^ s.cfg.N) 0x14 t) ∧
      ∃ t, exec (Pseudo.assign .shr va vb).expand s = .next t ∧
        Wrote s va (if s.cfg.N ≤ s.v vb then 0 else s.v va / 2 ^ s.v vb) 0x15 t) ∧
    (∃ t, exec (Pseudo.preInc va).expand s = .next t ∧ Wrote s va ((s.v va + 1) % 2 ^ s.cfg.N) 0x06 t) ∧
    (∃ t, exec (Pseudo.preDec va).expand s = .next t ∧
      Wrote s va ((s.v va + (2 ^ s.cfg.N - 1)) % 2 ^ s.cfg.N) 0x07 t) ∧
    ∀ rel : Relation, ∃ t d, exec (Pseudo.relation rel va vb).expand s = .next t ∧ Answered s d 0x08 t ∧
      (rel.onCmp d = true ↔ RelationHolds rel (s.v va) (s.v vb))
end

