-- ==== Sys2Proof/Laws/DivMod.lean ====
section
/-! SUPPORT. What one iteration of the bit-at-a-time divider does, and that iterations compose
(43_divmod.md R142). -/

namespace Sys2Proof.Machine

@[simp] theorem divBits_zero (a d lo : Nat) (qr : Nat × Nat) : divBits a d lo 0 qr = qr := rfl

/-- One iteration takes quotient and remainder of the dividend prefix `a div 2^(i+1)` to those of
`a div 2^i`. -/
theorem divStep_prefix (a i : Nat) {d : Nat} (hd : 0 < d) :
    divStep a d i (a / 2 ^ (i + 1) / d * 2 ^ (i + 1), a / 2 ^ (i + 1) % d) =
      (a / 2 ^ i / d * 2 ^ i, a / 2 ^ i % d) := by
  have hp : a / 2 ^ (i + 1) = a / 2 ^ i / 2 := by rw [Nat.pow_succ, Nat.div_div_eq_div_mul]
  simp only [divStep, trialRemainder, hp]
  generalize a / 2 ^ i = x
  rw [Nat.pow_succ]
  have h1 := Nat.div_add_mod (x / 2) d
  have h2 := Nat.mod_lt (x / 2) hd
  have h3 := Nat.div_add_mod x 2
  generalize x / 2 / d = q at *
  generalize x / 2 % d = r at *
  have hx : x = d * (2 * q) + (2 * r + x % 2) := by rw [Nat.mul_left_comm]; omega
  have h4 : x % 2 < 2 := Nat.mod_lt _ (by omega)
  split
  · next h =>
    have e : x = (2 * r + x % 2 - d) + d * (2 * q + 1) := by rw [Nat.mul_add]; omega
    have hq : x / d = 2 * q + 1 := by
      rw [e, Nat.add_mul_div_left _ _ hd, Nat.div_eq_of_lt (by omega)]; omega
    have hr : x % d = 2 * r + x % 2 - d := by
      conv_lhs => rw [e]
      rw [Nat.add_mul_mod_self_left, Nat.mod_eq_of_lt (by omega)]
    rw [hq, hr]; congr 1; ring
  · next h =>
    have e : x = (2 * r + x % 2) + d * (2 * q) := by omega
    have hq : x / d = 2 * q := by
      rw [e, Nat.add_mul_div_left _ _ hd, Nat.div_eq_of_lt (by omega)]; omega
    have hr : x % d = 2 * r + x % 2 := by
      conv_lhs => rw [e]
      rw [Nat.add_mul_mod_self_left, Nat.mod_eq_of_lt (by omega)]
    rw [hq, hr]; congr 1; ring

/-- The iterations compose: first the `n` higher bits, then the `m` lower ones. -/
theorem divBits_add (a d lo m n : Nat) (qr : Nat × Nat) :
    divBits a d lo (m + n) qr = divBits a d lo m (divBits a d (lo + m) n qr) := by
  induction n generalizing qr with
  | zero => rfl
  | succ n ih => rw [← Nat.add_assoc, divBits, divBits, ih, Nat.add_assoc]

@[simp] theorem divBits_one (a d lo : Nat) (qr : Nat × Nat) : divBits a d lo 1 qr = divStep a d lo qr := rfl

end Sys2Proof.Machine
end

