-- ==== Sys2Proof/Laws/Encoding.lean ====
section
/-! SUPPORT. The fields of a packed command word (30_encoding.md R62). -/

namespace Sys2Proof

theorem toNat_pack (o : Byte) (vd vs1 vs2 : VReg) (imm : BitVec 12) :
    (pack o vd vs1 vs2 imm).toNat =
      o.toNat * 2 ^ 24 + vd.val * 2 ^ 20 + vs1.val * 2 ^ 16 + vs2.val * 2 ^ 12 + imm.toNat := by
  have e : ∀ {a b : Nat} (x : BitVec a) (y : BitVec b), (x ++ y).toNat = x.toNat * 2 ^ b + y.toNat := by
    intro a b x y
    rw [BitVec.toNat_append, Nat.shiftLeft_eq, Nat.mul_comm, ← Nat.two_pow_add_eq_or_of_lt y.isLt]
  simp only [pack, e, BitVec.toNat_ofFin]
  omega

section
variable (o : Byte) (vd vs1 vs2 : VReg) (imm : BitVec 12)

@[simp] theorem opc_pack : opc (pack o vd vs1 vs2 imm) = o := by
  apply BitVec.eq_of_toNat_eq
  have h1 := o.isLt; have h2 := vd.isLt; have h3 := vs1.isLt; have h4 := vs2.isLt; have h5 := imm.isLt
  simp only [opc, BitVec.extractLsb_toNat, toNat_pack, Nat.shiftRight_eq_div_pow]
  omega

@[simp] theorem fieldVd_pack : fieldVd (pack o vd vs1 vs2 imm) = vd := by
  apply Fin.ext
  have h1 := o.isLt; have h2 := vd.isLt; have h3 := vs1.isLt; have h4 := vs2.isLt; have h5 := imm.isLt
  change ((pack o vd vs1 vs2 imm).extractLsb 23 20).toNat = _
  simp only [BitVec.extractLsb_toNat, toNat_pack, Nat.shiftRight_eq_div_pow]
  omega

@[simp] theorem fieldVs1_pack : fieldVs1 (pack o vd vs1 vs2 imm) = vs1 := by
  apply Fin.ext
  have h1 := o.isLt; have h2 := vd.isLt; have h3 := vs1.isLt; have h4 := vs2.isLt; have h5 := imm.isLt
  change ((pack o vd vs1 vs2 imm).extractLsb 19 16).toNat = _
  simp only [BitVec.extractLsb_toNat, toNat_pack, Nat.shiftRight_eq_div_pow]
  omega

@[simp] theorem fieldVs2_pack : fieldVs2 (pack o vd vs1 vs2 imm) = vs2 := by
  apply Fin.ext
  have h1 := o.isLt; have h2 := vd.isLt; have h3 := vs1.isLt; have h4 := vs2.isLt; have h5 := imm.isLt
  change ((pack o vd vs1 vs2 imm).extractLsb 15 12).toNat = _
  simp only [BitVec.extractLsb_toNat, toNat_pack, Nat.shiftRight_eq_div_pow]
  omega

@[simp] theorem fieldImm_pack : fieldImm (pack o vd vs1 vs2 imm) = imm.toFin := by
  apply Fin.ext
  have h1 := o.isLt; have h2 := vd.isLt; have h3 := vs1.isLt; have h4 := vs2.isLt; have h5 := imm.isLt
  change ((pack o vd vs1 vs2 imm).extractLsb 11 0).toNat = imm.toNat
  simp only [BitVec.extractLsb_toNat, toNat_pack, Nat.shiftRight_eq_div_pow]
  omega

end

@[simp] theorem ofSel_sel (sz : NativeSize) : NativeSize.ofSel sz.sel = sz := by cases sz <;> decide

/-! ### Words as their fields -/

theorem append_and {a b : Nat} (x y : BitVec a) (z w : BitVec b) :
    (x ++ z) &&& (y ++ w) = (x &&& y) ++ (z &&& w) := by
  ext i hi
  simp [BitVec.getElem_append]

/-- Words are conjoined field by field. -/
theorem pack_and (o o' : Byte) (a b c a' b' c' : VReg) (i i' : BitVec 12) :
    pack o a b c i &&& pack o' a' b' c' i' =
      pack (o &&& o') (BitVec.ofFin (w := 4) a &&& BitVec.ofFin (w := 4) a').toFin
        (BitVec.ofFin (w := 4) b &&& BitVec.ofFin (w := 4) b').toFin
        (BitVec.ofFin (w := 4) c &&& BitVec.ofFin (w := 4) c').toFin (i &&& i') :=
  (append_and _ _ _ _).trans (congrArg (· ++ (i &&& i'))
    ((append_and _ _ _ _).trans (congrArg (· ++ (BitVec.ofFin (w := 4) c &&& BitVec.ofFin (w := 4) c'))
      ((append_and _ _ _ _).trans (congrArg (· ++ (BitVec.ofFin (w := 4) b &&& BitVec.ofFin (w := 4) b'))
        (append_and _ _ _ _))))))

theorem toNat_opc (w : Word) : (opc w).toNat = w.toNat / 2 ^ 24 := by
  simp only [opc, BitVec.extractLsb_toNat, Nat.shiftRight_eq_div_pow]
  have := w.isLt
  omega

theorem val_fieldVd (w : Word) : (fieldVd w).val = w.toNat / 2 ^ 20 % 16 := by
  change (w.extractLsb 23 20).toNat = _
  simp [BitVec.extractLsb_toNat, Nat.shiftRight_eq_div_pow]

theorem val_fieldVs1 (w : Word) : (fieldVs1 w).val = w.toNat / 2 ^ 16 % 16 := by
  change (w.extractLsb 19 16).toNat = _
  simp [BitVec.extractLsb_toNat, Nat.shiftRight_eq_div_pow]

theorem val_fieldVs2 (w : Word) : (fieldVs2 w).val = w.toNat / 2 ^ 12 % 16 := by
  change (w.extractLsb 15 12).toNat = _
  simp [BitVec.extractLsb_toNat, Nat.shiftRight_eq_div_pow]

theorem val_fieldImm (w : Word) : (fieldImm w).val = w.toNat % 2 ^ 12 := by
  change (w.extractLsb 11 0).toNat = _
  simp [BitVec.extractLsb_toNat]

/-- A word is its five fields. -/
theorem pack_fields (w : Word) :
    pack (opc w) (fieldVd w) (fieldVs1 w) (fieldVs2 w) (BitVec.ofFin (fieldImm w)) = w := by
  apply BitVec.eq_of_toNat_eq
  rw [toNat_pack]
  simp only [toNat_opc, val_fieldVd, val_fieldVs1, val_fieldVs2, val_fieldImm, BitVec.toNat_ofFin]
  omega

/-- Two words are equal only field by field. -/
theorem pack_inj {o o' : Byte} {a b c a' b' c' : VReg} {i i' : BitVec 12}
    (h : pack o a b c i = pack o' a' b' c' i') : o = o' ∧ a = a' ∧ b = b' ∧ c = c' ∧ i = i' := by
  refine ⟨?_, ?_, ?_, ?_, ?_⟩
  · simpa using congrArg opc h
  · simpa using congrArg fieldVd h
  · simpa using congrArg fieldVs1 h
  · simpa using congrArg fieldVs2 h
  · exact BitVec.eq_of_toFin_eq (by simpa using congrArg fieldImm h)

theorem matchWord_eq (o : Byte) : matchWord o = pack o 0 0 0 0 := by
  apply BitVec.eq_of_toNat_eq
  rw [toNat_pack, matchWord, BitVec.toNat_append, Nat.shiftLeft_eq]
  simp

/-! ### Formats field by field (30_encoding.md R61) -/

/-- A word fits a format exactly when its fields are 0 where the mask has ones. -/
theorem fits_pack_iff {f : Format} {md ms mt : VReg} {mi : BitVec 12} (hm : f.mask = pack 0xFF md ms mt mi)
    (o : Byte) (a b c : VReg) (i : BitVec 12) :
    f.fits o (pack o a b c i) = true ↔
      BitVec.ofFin (w := 4) a &&& BitVec.ofFin (w := 4) md = 0 ∧
      BitVec.ofFin (w := 4) b &&& BitVec.ofFin (w := 4) ms = 0 ∧
      BitVec.ofFin (w := 4) c &&& BitVec.ofFin (w := 4) mt = 0 ∧ i &&& mi = 0 := by
  have e : ∀ x : BitVec 4, x.toFin = (0 : VReg) ↔ x = 0 :=
    fun x => ⟨fun h => BitVec.eq_of_toFin_eq h, fun h => by subst h; rfl⟩
  have ho : o &&& 0xFF = o := by
    have : (0xFF : Byte) = BitVec.allOnes 8 := by decide
    rw [this, BitVec.and_allOnes]
  rw [Format.fits, decide_eq_true_iff, hm, pack_and, matchWord_eq, ho]
  constructor
  · intro h
    obtain ⟨-, h1, h2, h3, h4⟩ := pack_inj h
    exact ⟨(e _).1 h1, (e _).1 h2, (e _).1 h3, h4⟩
  · rintro ⟨h1, h2, h3, h4⟩
    rw [h1, h2, h3, h4]; rfl

theorem mask_A : Format.A.mask = pack 0xFF 0 0 0 0xFFF := by decide
theorem mask_B : Format.B.mask = pack 0xFF 0 0 15 0xFFF := by decide
theorem mask_C : Format.C.mask = pack 0xFF 15 0 0 0xFFF := by decide
theorem mask_D : Format.D.mask = pack 0xFF 0 15 15 0xFFF := by decide
theorem mask_E : Format.E.mask = pack 0xFF 0 15 15 0xFFC := by decide
theorem mask_F : Format.F.mask = pack 0xFF 15 0 15 0xFFC := by decide
theorem mask_G : Format.G.mask = pack 0xFF 15 0 15 0 := by decide
theorem mask_H : Format.H.mask = pack 0xFF 0 15 15 0 := by decide

end Sys2Proof
end

