-- ==== Sys2Proof/Laws/State.lean ====
section
/-! SUPPORT. What each update of the state does to each field, so that no later proof unfolds one. -/

namespace Sys2Proof.Machine

/-! ### Writing a register -/

@[simp] theorem State.v_setV_same (s : State) (r : VReg) (x : Nat) : (s.setV r x).v r = x := by
  simp [State.v, State.setV]

theorem State.v_setV_ne (s : State) {q r : VReg} (x : Nat) (h : q ≠ r) : (s.setV r x).v q = s.v q := by
  have h' : r.val ≠ q.val := fun e => h (Fin.ext e.symm)
  simp [State.v, State.setV, h']

theorem State.v_setV (s : State) (q r : VReg) (x : Nat) :
    (s.setV r x).v q = if q = r then x else s.v q := by
  by_cases h : q = r
  · subst h; simp
  · simp [h, State.v_setV_ne s x h]

@[simp] theorem State.cfg_setV (s : State) (r : VReg) (x : Nat) : (s.setV r x).cfg = s.cfg := rfl
@[simp] theorem State.din_setV (s : State) (r : VReg) (x : Nat) : (s.setV r x).din = s.din := rfl
@[simp] theorem State.pending_setV (s : State) (r : VReg) (x : Nat) : (s.setV r x).pending = s.pending := rfl
@[simp] theorem State.responses_setV (s : State) (r : VReg) (x : Nat) :
    (s.setV r x).responses = s.responses := rfl
@[simp] theorem State.resetReq_setV (s : State) (r : VReg) (x : Nat) :
    (s.setV r x).resetReq = s.resetReq := rfl

/-! ### Writing a limb -/

@[simp] theorem State.cfg_memWrite (s : State) (r : VReg) (i x : Nat) : (s.memWrite r i x).cfg = s.cfg := rfl
@[simp] theorem State.din_memWrite (s : State) (r : VReg) (i x : Nat) : (s.memWrite r i x).din = s.din := rfl
@[simp] theorem State.pending_memWrite (s : State) (r : VReg) (i x : Nat) :
    (s.memWrite r i x).pending = s.pending := rfl
@[simp] theorem State.responses_memWrite (s : State) (r : VReg) (i x : Nat) :
    (s.memWrite r i x).responses = s.responses := rfl
@[simp] theorem State.resetReq_memWrite (s : State) (r : VReg) (i x : Nat) :
    (s.memWrite r i x).resetReq = s.resetReq := rfl

/-! ### Answering -/

@[simp] theorem State.v_emit (s : State) (e : Err) (op : Byte) (d : Data) (r : VReg) :
    (s.emit e op d).v r = s.v r := rfl
@[simp] theorem State.regs_emit (s : State) (e : Err) (op : Byte) (d : Data) :
    (s.emit e op d).regs = s.regs := rfl
@[simp] theorem State.cfg_emit (s : State) (e : Err) (op : Byte) (d : Data) :
    (s.emit e op d).cfg = s.cfg := rfl
@[simp] theorem State.din_emit (s : State) (e : Err) (op : Byte) (d : Data) :
    (s.emit e op d).din = s.din := rfl
@[simp] theorem State.pending_emit (s : State) (e : Err) (op : Byte) (d : Data) :
    (s.emit e op d).pending = s.pending := rfl
@[simp] theorem State.responses_emit (s : State) (e : Err) (op : Byte) (d : Data) :
    (s.emit e op d).responses = s.responses ++ [⟨e, op, d⟩] := rfl
@[simp] theorem State.resetReq_emit (s : State) (e : Err) (op : Byte) (d : Data) :
    (s.emit e op d).resetReq = s.resetReq := rfl

/-- `respond`, `complete` and `raise` are `emit`, after a register write where there is one. -/
theorem State.respond_eq (s : State) (op : Byte) (d : Data) : s.respond op d = s.emit .ok op d := rfl
theorem State.complete_eq (s : State) (r : VReg) (x : Nat) (op : Byte) :
    s.complete r x op = (s.setV r x).emit .ok op 0 := rfl
theorem State.raise_eq (s : State) (e : Err) (op : Byte) : s.raise e op = s.emit e op 0 := rfl

/-! ### The host's side -/

@[simp] theorem State.v_accept (s : State) (c : Command) (rest : List Command) (r : VReg) :
    (s.accept c rest).v r = s.v r := rfl
@[simp] theorem State.regs_accept (s : State) (c : Command) (rest : List Command) :
    (s.accept c rest).regs = s.regs := rfl
@[simp] theorem State.cfg_accept (s : State) (c : Command) (rest : List Command) :
    (s.accept c rest).cfg = s.cfg := rfl
@[simp] theorem State.din_accept (s : State) (c : Command) (rest : List Command) :
    (s.accept c rest).din = c.din := rfl
@[simp] theorem State.pending_accept (s : State) (c : Command) (rest : List Command) :
    (s.accept c rest).pending = rest := rfl
@[simp] theorem State.responses_accept (s : State) (c : Command) (rest : List Command) :
    (s.accept c rest).responses = s.responses := rfl
@[simp] theorem State.resetReq_accept (s : State) (c : Command) (rest : List Command) :
    (s.accept c rest).resetReq = s.resetReq := rfl

@[simp] theorem State.v_applyReset (s : State) (r : VReg) : s.applyReset.v r = 0 := by
  simp [State.v, State.applyReset]
@[simp] theorem State.cfg_applyReset (s : State) : s.applyReset.cfg = s.cfg := rfl
@[simp] theorem State.pending_applyReset (s : State) : s.applyReset.pending = [] := rfl
@[simp] theorem State.responses_applyReset (s : State) : s.applyReset.responses = s.responses := rfl
@[simp] theorem State.resetReq_applyReset (s : State) : s.applyReset.resetReq = false := rfl

end Sys2Proof.Machine
end

