-- ==== Sys2Proof/Laws/Ops.lean ====
section
/-! SUPPORT. One lemma per shared operation that ends a command, saying everything it does, and one
per function that a step calls, saying every way it can answer. -/

namespace Sys2Proof.Machine

/-- `complete` writes one register and answers OK. -/
theorem State.complete_wrote (s : State) (vd : VReg) (x : Nat) (op : Byte) :
    Wrote s vd x op (s.complete vd x op) := by
  refine ⟨by simp [complete_eq], fun r h => ?_, rfl, rfl, rfl, rfl, rfl⟩
  simp [complete_eq, State.v_setV_ne s x h]

/-- `respond` writes nothing and answers OK with data. -/
theorem State.respond_answered (s : State) (d : Data) (op : Byte) : Answered s d op (s.respond op d) :=
  ⟨fun _ => rfl, rfl, rfl, rfl, rfl, rfl⟩

/-- `raise` writes nothing and answers the error. -/
theorem State.raise_failed (s : State) (e : Err) (op : Byte) : Failed s e op (s.raise e op) :=
  ⟨fun _ => rfl, rfl, rfl, rfl, rfl, rfl⟩

/-- A limb write that answers OK writes one register. -/
theorem State.memWrite_wrote (s : State) (vd : VReg) (i x : Nat) (op : Byte) :
    Wrote s vd (s.v vd - s.memRead vd i * 2 ^ (s.cfg.W * i) + x * 2 ^ (s.cfg.W * i)) op
      ((s.memWrite vd i x).respond op 0) :=
  State.complete_wrote s vd _ op

/-- A step on a ready state is the execution of its command. -/
theorem step_ready {s : State} {c : Command} {rest : List Command} (h : Ready s c rest) :
    step s = runCommand c rest s := by
  obtain ⟨h1, h2, h3⟩ := h
  simp [step, advance, h1, h2, h3]

/-- Every way `step` can answer a next state. -/
theorem step_next_cases {s t : State} (h : step s = .next t) :
    s.cfg.ok = true ∧
      ((s.resetReq = true ∧ t = s.applyReset) ∨
       (s.resetReq = false ∧ s.pending = [] ∧ t = s) ∨
       (∃ c rest, Ready s c rest ∧ decode s.cfg c.word = none ∧
          t = (s.accept c rest).raise .illegal (opc c.word)) ∨
       (∃ c rest i, Ready s c rest ∧ decode s.cfg c.word = some i ∧
          exec i (s.accept c rest) = .next t)) := by
  unfold step advance at h
  split at h
  · next hok =>
    refine ⟨hok, ?_⟩
    split at h
    · next hr => injection h with h; exact .inl ⟨hr, h.symm⟩
    · next hr =>
      have hr' : s.resetReq = false := by simpa using hr
      split at h
      · next hp => injection h with h; exact .inr (.inl ⟨hr', hp, h.symm⟩)
      · next c rest hp =>
        unfold runCommand at h
        split at h
        · next i hd => exact .inr (.inr (.inr ⟨c, rest, i, ⟨hok, hr', hp⟩, hd, h⟩))
        · next hd => injection h with h; exact .inr (.inr (.inl ⟨c, rest, ⟨hok, hr', hp⟩, hd, h.symm⟩))
  · cases h

end Sys2Proof.Machine
end

