-- ==== Sys2Proof/Laws/Memory.lean ====
section
/-! SUPPORT. The limb storage: a limb read after a limb write, and that every operation over registers
and limbs keeps the canonical form (10_state.md R22, R23; 20_memory.md R43). -/

namespace Sys2Proof.Machine

theorem Config.W_pos (c : Config) : 0 < c.W := by
  unfold Config.W; cases c.limb <;> decide

/-- Replacing the limb at `2^k`, of width `w`, in a number. -/
theorem replace_limb (v x k w : Nat) :
    v - v / 2 ^ k % 2 ^ w * 2 ^ k + x * 2 ^ k = v / 2 ^ (k + w) * 2 ^ (k + w) + x * 2 ^ k + v % 2 ^ k := by
  have h1 : v = v / 2 ^ k * 2 ^ k + v % 2 ^ k := (Nat.div_add_mod' v (2 ^ k)).symm
  have h2 : v / 2 ^ k = v / 2 ^ (k + w) * 2 ^ w + v / 2 ^ k % 2 ^ w := by
    rw [Nat.pow_add, ← Nat.div_div_eq_div_mul]
    exact (Nat.div_add_mod' (v / 2 ^ k) (2 ^ w)).symm
  have h3 : v / 2 ^ k * 2 ^ k = v / 2 ^ (k + w) * 2 ^ (k + w) + v / 2 ^ k % 2 ^ w * 2 ^ k := by
    conv_lhs => rw [h2, Nat.add_mul, Nat.mul_assoc, ← Nat.pow_add, Nat.add_comm w k]
  omega

/-- The value of a register after a limb write. -/
theorem State.v_memWrite_same (s : State) (r : VReg) (i x : Nat) :
    (s.memWrite r i x).v r =
      s.v r / 2 ^ (s.cfg.W * (i + 1)) * 2 ^ (s.cfg.W * (i + 1)) + x * 2 ^ (s.cfg.W * i) +
        s.v r % 2 ^ (s.cfg.W * i) := by
  rw [State.memWrite, State.v_setV_same, State.memRead, replace_limb, Nat.mul_succ]

theorem State.v_memWrite_ne (s : State) {q r : VReg} (i x : Nat) (h : q ≠ r) :
    (s.memWrite r i x).v q = s.v q := State.v_setV_ne s _ h

/-! ### Reading after a limb write -/

/-- A limb is the slice of the testable bits. -/
theorem slice_testBit (v k w i : Nat) :
    (v / 2 ^ k % 2 ^ w).testBit i = (decide (i < w) && v.testBit (k + i)) := by
  rw [Nat.testBit_mod_two_pow, Nat.testBit_div_two_pow, Nat.add_comm]

theorem replaced_testBit (v x k w i : Nat) (hx : x < 2 ^ w) :
    (v / 2 ^ (k + w) * 2 ^ (k + w) + x * 2 ^ k + v % 2 ^ k).testBit i =
      if k ≤ i ∧ i < k + w then x.testBit (i - k) else v.testBit i := by
  have hlow : v % 2 ^ k < 2 ^ k := Nat.mod_lt _ (Nat.two_pow_pos _)
  have e : v / 2 ^ (k + w) * 2 ^ (k + w) + x * 2 ^ k + v % 2 ^ k =
      2 ^ k * (2 ^ w * (v / 2 ^ (k + w)) + x) + v % 2 ^ k := by
    rw [Nat.mul_add, ← Nat.mul_assoc, ← Nat.pow_add]; ring
  rw [e, Nat.testBit_two_pow_mul_add _ hlow, Nat.testBit_two_pow_mul_add _ hx,
    Nat.testBit_div_two_pow, Nat.testBit_mod_two_pow]
  by_cases h1 : i < k
  · simp [h1, Nat.not_le.2 h1]
  · by_cases h2 : i - k < w
    · simp [h1, h2, Nat.not_lt.1 h1, show i < k + w by omega]
    · simp [h1, h2, Nat.not_lt.1 h1, show ¬ i < k + w by omega, show i - k - w + (k + w) = i by omega]

/-- The limb written is read back. -/
theorem State.memRead_memWrite_same (s : State) (r : VReg) (i : Nat) {x : Nat} (hx : x < 2 ^ s.cfg.W) :
    (s.memWrite r i x).memRead r i = x := by
  rw [State.memRead, State.v_memWrite_same, State.cfg_memWrite, Nat.mul_succ]
  apply Nat.eq_of_testBit_eq
  intro b
  rw [slice_testBit, replaced_testBit _ _ _ _ _ hx]
  by_cases h : b < s.cfg.W
  · simp [h]
  · simp [h, Nat.testBit_lt_two_pow (Nat.lt_of_lt_of_le hx (Nat.pow_le_pow_right (by omega) (Nat.not_lt.1 h)))]

/-- Every other limb of every register reads as before. -/
theorem State.memRead_memWrite_ne (s : State) (q r : VReg) (i j : Nat) {x : Nat} (hx : x < 2 ^ s.cfg.W)
    (h : ¬ (q = r ∧ j = i)) : (s.memWrite r i x).memRead q j = s.memRead q j := by
  by_cases hq : q = r
  · subst hq
    have hj : j ≠ i := fun e => h ⟨rfl, e⟩
    rw [State.memRead, State.v_memWrite_same, State.cfg_memWrite, Nat.mul_succ]
    apply Nat.eq_of_testBit_eq
    intro b
    rw [State.memRead, slice_testBit, slice_testBit, replaced_testBit _ _ _ _ _ hx]
    by_cases hb : b < s.cfg.W
    · have : ¬ (s.cfg.W * i ≤ s.cfg.W * j + b ∧ s.cfg.W * j + b < s.cfg.W * i + s.cfg.W) := by
        rintro ⟨h1, h2⟩
        rcases Nat.lt_or_gt_of_ne hj with hlt | hgt
        · have := Nat.mul_le_mul_left s.cfg.W (Nat.succ_le_of_lt hlt)
          rw [Nat.mul_succ] at this; omega
        · have := Nat.mul_le_mul_left s.cfg.W (Nat.succ_le_of_lt hgt)
          rw [Nat.mul_succ] at this; omega
      simp [hb, this]
    · simp [hb]
  · rw [State.memRead, State.v_memWrite_ne s i x hq]; rfl

/-! ### The canonical form is kept -/

theorem Memory.wf_iff (s : State) : Memory.wf s = true ↔ InvariantB s := decide_eq_true_iff

/-- The state after reset is in canonical form. -/
theorem Memory.wf_reset : Memory.wf State.reset = true :=
  (Memory.wf_iff _).2 fun r => by simp [State.reset, State.resetOf, State.v]

/-- A register write of a value in range keeps the canonical form. -/
theorem State.setV_inv {s : State} (h : InvariantB s) (r : VReg) {x : Nat} (hx : x < 2 ^ s.cfg.N) :
    InvariantB (s.setV r x) := by
  intro q
  rw [State.v_setV, State.cfg_setV]
  split
  · exact hx
  · exact h q

/-- Answering keeps it. -/
theorem State.emit_inv {s : State} (h : InvariantB s) (e : Err) (op : Byte) (d : Data) : InvariantB (s.emit e op d) := h

/-- Taking a command from the queue keeps it. -/
theorem State.accept_inv {s : State} (h : InvariantB s) (c : Command) (rest : List Command) :
    InvariantB (s.accept c rest) := h

/-- Reset establishes it. -/
theorem State.applyReset_inv (s : State) : InvariantB s.applyReset := fun r => by simp

/-- A limb write that its precondition allows (20_memory.md R43) keeps it: below the top limb any limb
value, in the top limb at most TOPMASK. -/
theorem State.memWrite_inv {s : State} (h : InvariantB s) (r : VReg) {i x : Nat} (hi : i < s.cfg.L)
    (hx : x < 2 ^ s.cfg.W) (htop : i = s.cfg.L - 1 → x ≤ s.cfg.topMask) : InvariantB (s.memWrite r i x) := by
  have hW := Config.W_pos s.cfg
  have hlow : s.v r % 2 ^ (s.cfg.W * i) < 2 ^ (s.cfg.W * i) := Nat.mod_lt _ (Nat.two_pow_pos _)
  have hN : s.cfg.W * (s.cfg.L - 1) < s.cfg.N ∧ s.cfg.N ≤ s.cfg.W * s.cfg.L := by
    have hd := Nat.div_add_mod (s.cfg.N + s.cfg.W - 1) s.cfg.W
    have hm := Nat.mod_lt (s.cfg.N + s.cfg.W - 1) hW
    have hL : s.cfg.L = (s.cfg.N + s.cfg.W - 1) / s.cfg.W := rfl
    rw [← hL] at hd
    have : s.cfg.W * s.cfg.L = s.cfg.W * (s.cfg.L - 1) + s.cfg.W := by
      rw [← Nat.mul_succ]; congr 1; omega
    omega
  have key : (s.memWrite r i x).v r < 2 ^ s.cfg.N := by
    rw [State.v_memWrite_same]
    by_cases ht : i = s.cfg.L - 1
    · have hx' := htop ht
      have hv : s.v r < 2 ^ (s.cfg.W * (i + 1)) := by
        refine Nat.lt_of_lt_of_le (h r) (Nat.pow_le_pow_right (by omega) ?_)
        have : i + 1 = s.cfg.L := by omega
        rw [this]; exact hN.2
      rw [Nat.div_eq_of_lt hv, Nat.zero_mul, Nat.zero_add]
      have hT : 2 ^ s.cfg.N = 2 ^ s.cfg.T * 2 ^ (s.cfg.W * i) := by
        rw [← Nat.pow_add]; congr 1
        have : s.cfg.T = s.cfg.N - (s.cfg.L - 1) * s.cfg.W := rfl
        rw [this, ht, Nat.mul_comm s.cfg.W]
        have := hN.1
        rw [Nat.mul_comm] at this
        omega
      have hx2 : x + 1 ≤ 2 ^ s.cfg.T := by
        have := Nat.two_pow_pos s.cfg.T
        have : s.cfg.topMask = 2 ^ s.cfg.T - 1 := rfl
        omega
      have := Nat.mul_le_mul_right (2 ^ (s.cfg.W * i)) hx2
      rw [Nat.add_mul, Nat.one_mul] at this
      omega
    · have hle : s.cfg.W * (i + 1) ≤ s.cfg.N := by
        have : s.cfg.W * (i + 1) ≤ s.cfg.W * (s.cfg.L - 1) := Nat.mul_le_mul_left _ (by omega)
        omega
      have hx2 := Nat.mul_le_mul_right (2 ^ (s.cfg.W * i)) (Nat.succ_le_of_lt hx)
      rw [← Nat.pow_add, Nat.add_comm, ← Nat.mul_succ, Nat.succ_mul] at hx2
      have hq : s.v r / 2 ^ (s.cfg.W * (i + 1)) + 1 ≤ 2 ^ (s.cfg.N - s.cfg.W * (i + 1)) := by
        refine (Nat.div_lt_iff_lt_mul (Nat.two_pow_pos _)).2 ?_
        rw [← Nat.pow_add, Nat.sub_add_cancel hle]; exact h r
      have hq2 := Nat.mul_le_mul_right (2 ^ (s.cfg.W * (i + 1))) hq
      rw [← Nat.pow_add, Nat.sub_add_cancel hle, Nat.add_mul, Nat.one_mul] at hq2
      simp only [Nat.succ_eq_add_one] at *
      omega
  intro q
  by_cases hq : q = r
  · subst hq; exact key
  · rw [State.v_memWrite_ne s i x hq]; exact h q

end Sys2Proof.Machine
end

