-- ==== Sys2Proof/Laws/PerInstr.lean ====
section
/-! SUPPORT. Facts about every command as syntax, one lemma per constructor (LAWS.json). -/

namespace Sys2Proof.Laws

/-- The opcode byte of a command's word is the command's opcode, so a response's `op` echo names the
command (30_encoding.md R62, R64, R71). -/
def OpcodeByte.Statement (i : Instr) : Prop := opc (encode i) = i.opcode

theorem OpcodeByte.add (vd vs1 vs2 : VReg) :
    OpcodeByte.Statement (.add vd vs1 vs2) := opc_pack ..
theorem OpcodeByte.sub (vd vs1 vs2 : VReg) :
    OpcodeByte.Statement (.sub vd vs1 vs2) := opc_pack ..
theorem OpcodeByte.mul (vd vs1 vs2 : VReg) :
    OpcodeByte.Statement (.mul vd vs1 vs2) := opc_pack ..
theorem OpcodeByte.div (vd vs1 vs2 : VReg) :
    OpcodeByte.Statement (.div vd vs1 vs2) := opc_pack ..
theorem OpcodeByte.mod (vd vs1 vs2 : VReg) :
    OpcodeByte.Statement (.mod vd vs1 vs2) := opc_pack ..
theorem OpcodeByte.inc (vd vs1 : VReg) :
    OpcodeByte.Statement (.inc vd vs1) := opc_pack ..
theorem OpcodeByte.dec (vd vs1 : VReg) :
    OpcodeByte.Statement (.dec vd vs1) := opc_pack ..
theorem OpcodeByte.cmp (vs1 vs2 : VReg) :
    OpcodeByte.Statement (.cmp vs1 vs2) := opc_pack ..
theorem OpcodeByte.and (vd vs1 vs2 : VReg) :
    OpcodeByte.Statement (.and vd vs1 vs2) := opc_pack ..
theorem OpcodeByte.or (vd vs1 vs2 : VReg) :
    OpcodeByte.Statement (.or vd vs1 vs2) := opc_pack ..
theorem OpcodeByte.xor (vd vs1 vs2 : VReg) :
    OpcodeByte.Statement (.xor vd vs1 vs2) := opc_pack ..
theorem OpcodeByte.not (vd vs1 : VReg) :
    OpcodeByte.Statement (.not vd vs1) := opc_pack ..
theorem OpcodeByte.shl (vd vs1 vs2 : VReg) :
    OpcodeByte.Statement (.shl vd vs1 vs2) := opc_pack ..
theorem OpcodeByte.shr (vd vs1 vs2 : VReg) :
    OpcodeByte.Statement (.shr vd vs1 vs2) := opc_pack ..
theorem OpcodeByte.zero (vd : VReg) :
    OpcodeByte.Statement (.zero vd) := opc_pack ..
theorem OpcodeByte.ldn (vd : VReg) (sz : NativeSize) :
    OpcodeByte.Statement (.ldn vd sz) := opc_pack ..
theorem OpcodeByte.ldnt (vd : VReg) (sz : NativeSize) :
    OpcodeByte.Statement (.ldnt vd sz) := opc_pack ..
theorem OpcodeByte.stn (vs1 : VReg) (sz : NativeSize) :
    OpcodeByte.Statement (.stn vs1 sz) := opc_pack ..
theorem OpcodeByte.rdl (vs1 : VReg) (idx : Fin 4096) :
    OpcodeByte.Statement (.rdl vs1 idx) := opc_pack ..
theorem OpcodeByte.wrl (vd : VReg) (idx : Fin 4096) :
    OpcodeByte.Statement (.wrl vd idx) := opc_pack ..

end Sys2Proof.Laws
end

