-- ==== Sys2Proof/Tests/Slice0.lean ====
section
/-! SUPPORT. Small tests: ill-formed terms, words written out from the spec's encodings, one step per test
with the result the spec's vectors give (95_test_vectors.md, 96_test_programs.md; the id of the vector
stands in the name), and witnesses for the hypotheses of the statements. -/

namespace Sys2Proof.Tests

open Sys2Proof.Machine

/-! ### Helpers -/

/-- An engine with some registers loaded and one command issued. -/
def start (N : Nat) (l : LimbWidth) (regs : List (VReg × Nat)) (word : Word) (din : Data) : State :=
  let s := regs.foldl (fun s p => s.setV p.1 p.2) (State.resetOf ⟨N, l⟩)
  { s with pending := [⟨word, din⟩] }

/-- One register and the last response after a step. -/
def look (o : Host.Outcome State Fault Refusal) (r : VReg) : Option (Nat × Option Response) :=
  match o with
  | .next t => some (t.v r, t.responses.getLast?)
  | .fault _ => none
  | .refused _ => none

/-! ### WellFormed: the check refuses an ill-formed term -/

theorem test_wf_refuses_rdl_index_L : (Instr.rdl 1 8).wellFormed ⟨256, .w32⟩ = false := by decide
theorem test_wf_refuses_wrl_index_L : (Instr.wrl 2 3).wellFormed ⟨20, .w8⟩ = false := by decide
theorem test_wf_takes_top_limb : (Instr.wrl 2 2).wellFormed ⟨20, .w8⟩ = true := by decide

/-! ### Decoding: words written out from the formats of R61 and R62 -/

theorem test_decode_add : decode ⟨256, .w32⟩ 0x01FEA000 = some (.add 15 14 10) := by decide
theorem test_decode_sub : decode ⟨256, .w32⟩ 0x02645000 = some (.sub 6 4 5) := by decide
theorem test_decode_mul : decode ⟨256, .w32⟩ 0x03988000 = some (.mul 9 8 8) := by decide
theorem test_decode_div : decode ⟨256, .w32⟩ 0x04DBC000 = some (.div 13 11 12) := by decide
theorem test_decode_mod : decode ⟨256, .w32⟩ 0x05EBC000 = some (.mod 14 11 12) := by decide
theorem test_decode_inc : decode ⟨256, .w32⟩ 0x06540000 = some (.inc 5 4) := by decide
theorem test_decode_dec : decode ⟨256, .w32⟩ 0x07650000 = some (.dec 6 5) := by decide
theorem test_decode_cmp : decode ⟨256, .w32⟩ 0x0809A000 = some (.cmp 9 10) := by decide
theorem test_decode_and : decode ⟨256, .w32⟩ 0x10002000 = some (.and 0 0 2) := by decide
theorem test_decode_or : decode ⟨256, .w32⟩ 0x11312000 = some (.or 3 1 2) := by decide
theorem test_decode_xor : decode ⟨256, .w32⟩ 0x12201000 = some (.xor 2 0 1) := by decide
theorem test_decode_not : decode ⟨256, .w32⟩ 0x13740000 = some (.not 7 4) := by decide
theorem test_decode_shl : decode ⟨256, .w32⟩ 0x14602000 = some (.shl 6 0 2) := by decide
theorem test_decode_shr : decode ⟨256, .w32⟩ 0x15413000 = some (.shr 4 1 3) := by decide
theorem test_decode_zero : decode ⟨256, .w32⟩ 0x20F00000 = some (.zero 15) := by decide
theorem test_decode_ldn : decode ⟨256, .w32⟩ 0x21800001 = some (.ldn 8 .b16) := by decide
theorem test_decode_ldnt : decode ⟨256, .w32⟩ 0x22100003 = some (.ldnt 1 .b64) := by decide
theorem test_decode_stn : decode ⟨256, .w32⟩ 0x230D0002 = some (.stn 13 .b32) := by decide
theorem test_decode_rdl : decode ⟨256, .w8⟩ 0x2401001F = some (.rdl 1 31) := by decide
theorem test_decode_wrl : decode ⟨256, .w32⟩ 0x25200007 = some (.wrl 2 7) := by decide
theorem test_decode_rdl_index_L : decode ⟨256, .w32⟩ 0x24010008 = none := by decide
theorem test_decode_unassigned : decode ⟨256, .w32⟩ 0x80000000 = none := by decide
theorem test_decode_unused_field : decode ⟨256, .w32⟩ 0x21000004 = none := by decide
theorem test_table_word : decodeTableWord 32 0x25000000 = some (.wrl 0 0) := by decide
/-- No two rows of the opcode table take the same word: their opcodes differ. -/
theorem test_opcode_rows_disjoint :
    opcodeRows.Pairwise (fun a b => a.pattern.extractLsb 31 24 ≠ b.pattern.extractLsb 31 24) := by decide

/-! ### One step per test: the vectors of the spec -/

theorem test_zero_V2_1 :
    look (step (start 256 .w32 [(3, 0x1234)] 0x20300000 0x0)) 3 =
      some (0, some ⟨.ok, 0x20, 0x0⟩) := by decide
theorem test_ldn_V2_9 :
    look (step (start 20 .w8 [] 0x21100002 0xFFFFF)) 1 =
      some (0xfffff, some ⟨.ok, 0x21, 0x0⟩) := by decide
theorem test_ldn_V2_10 :
    look (step (start 20 .w8 [(1, 0x77)] 0x21100002 0x100000)) 1 =
      some (0x77, some ⟨.trunc, 0x21, 0x0⟩) := by decide
theorem test_ldnt_V2_13 :
    look (step (start 20 .w8 [] 0x22100003 0x1234567)) 1 =
      some (0x34567, some ⟨.ok, 0x22, 0x0⟩) := by decide
theorem test_ldnt_V2_14 :
    look (step (start 20 .w8 [] 0x22100002 0xFFF00000)) 1 =
      some (0, some ⟨.ok, 0x22, 0x0⟩) := by decide
theorem test_stn_V2_23 :
    look (step (start 256 .w32 [(2, 0x112233445566778899aabbccddeeff00)] 0x23020003 0x0)) 2 =
      some (0x112233445566778899aabbccddeeff00, some ⟨.ok, 0x23, 0x99AABBCCDDEEFF00⟩) := by decide
theorem test_stn_V2_25 :
    look (step (start 20 .w8 [(2, 0xfffff)] 0x23020001 0x0)) 2 =
      some (0xfffff, some ⟨.ok, 0x23, 0xFFFF⟩) := by decide
theorem test_rdl_V2_28 :
    look (step (start 256 .w32 [(1, 0x1122334455667788)] 0x24010001 0x0)) 1 =
      some (0x1122334455667788, some ⟨.ok, 0x24, 0x11223344⟩) := by decide
theorem test_rdl_V2_38 :
    look (step (start 20 .w8 [(1, 0xabcde)] 0x24010003 0x0)) 1 =
      some (0xabcde, some ⟨.illegal, 0x24, 0x0⟩) := by decide
theorem test_wrl_V2_40 :
    look (step (start 20 .w8 [(2, 0xa0000)] 0x25200000 0xDE)) 2 =
      some (0xa00de, some ⟨.ok, 0x25, 0x0⟩) := by decide
theorem test_wrl_V2_44 :
    look (step (start 20 .w8 [(2, 0x12345)] 0x25200002 0x10)) 2 =
      some (0x12345, some ⟨.trunc, 0x25, 0x0⟩) := by decide
theorem test_add_V3_5 :
    look (step (start 256 .w32 [(0, 0xffffffff), (1, 1)] 0x01201000 0x0)) 2 =
      some (0x100000000, some ⟨.ok, 0x01, 0x0⟩) := by decide
theorem test_add_V3_10 :
    look (step (start 20 .w8 [(0, 0xfffff), (1, 1)] 0x01201000 0x0)) 2 =
      some (0, some ⟨.ok, 0x01, 0x0⟩) := by decide
theorem test_sub_V3_23 :
    look (step (start 20 .w8 [(0, 0), (1, 1)] 0x02201000 0x0)) 2 =
      some (0xfffff, some ⟨.ok, 0x02, 0x0⟩) := by decide
theorem test_sub_V3_25 :
    look (step (start 20 .w8 [(0, 0x12345), (1, 0xabcde)] 0x02201000 0x0)) 2 =
      some (0x66667, some ⟨.ok, 0x02, 0x0⟩) := by decide
theorem test_inc_V3_29 :
    look (step (start 256 .w32 [(4, 0xffffffff)] 0x06540000 0x0)) 5 =
      some (0x100000000, some ⟨.ok, 0x06, 0x0⟩) := by decide
theorem test_inc_V3_31 :
    look (step (start 20 .w8 [(4, 0xfffff)] 0x06440000 0x0)) 4 =
      some (0, some ⟨.ok, 0x06, 0x0⟩) := by decide
theorem test_dec_V3_36 :
    look (step (start 256 .w32 [(5, 0x100000000)] 0x07550000 0x0)) 5 =
      some (0xffffffff, some ⟨.ok, 0x07, 0x0⟩) := by decide
theorem test_dec_V3_38 :
    look (step (start 20 .w8 [(5, 0)] 0x07550000 0x0)) 5 =
      some (0xfffff, some ⟨.ok, 0x07, 0x0⟩) := by decide
theorem test_mul_V4_13 :
    look (step (start 16 .w8 [(0, 0x1234), (1, 0x5678)] 0x03201000 0x0)) 2 =
      some (0x60, some ⟨.ok, 0x03, 0x0⟩) := by decide
theorem test_mul_V4_15 :
    look (step (start 20 .w8 [(0, 0xfffff)] 0x03200000 0x0)) 2 =
      some (1, some ⟨.ok, 0x03, 0x0⟩) := by decide
theorem test_div_V5_1 :
    look (step (start 256 .w32 [(0, 0x11), (1, 5)] 0x04201000 0x0)) 2 =
      some (3, some ⟨.ok, 0x04, 0x0⟩) := by decide
theorem test_div_V5_23 :
    look (step (start 256 .w32 [(0, 0x11), (1, 0), (2, 0x77)] 0x04201000 0x0)) 2 =
      some (0x77, some ⟨.divzero, 0x04, 0x0⟩) := by decide
theorem test_mod_V5_28 :
    look (step (start 256 .w32 [(0, 9)] 0x05000000 0x0)) 0 =
      some (0, some ⟨.ok, 0x05, 0x0⟩) := by decide
theorem test_mod_V5_31 :
    look (step (start 20 .w8 [(0, 0xfffff), (1, 0x3e8)] 0x05201000 0x0)) 2 =
      some (0x23f, some ⟨.ok, 0x05, 0x0⟩) := by decide
theorem test_cmp_V6_8 :
    look (step (start 256 .w32 [(0, 0x100000000000000000000000000000000000000000000000000000000), (1, 0xffffffffffffffffffffffffffffffffffffffffffffffffffffffff)] 0x08001000 0x0)) 0 =
      some (0x100000000000000000000000000000000000000000000000000000000, some ⟨.ok, 0x08, 0x2⟩) := by decide
theorem test_cmp_V6_9 :
    look (step (start 256 .w32 [(0, 0x8000000000000000000000000000000000000000000000000000000000000001), (1, 0x8000000000000000000000000000000000000000000000000000000000000002)] 0x08001000 0x0)) 0 =
      some (0x8000000000000000000000000000000000000000000000000000000000000001, some ⟨.ok, 0x08, 0x1⟩) := by decide
theorem test_and_V7_1 :
    look (step (start 20 .w8 [(0, 0xf0f0f), (1, 0xff00)] 0x10201000 0x0)) 2 =
      some (0xf00, some ⟨.ok, 0x10, 0x0⟩) := by decide
theorem test_xor_V7_3 :
    look (step (start 20 .w8 [(0, 0xf0f0f), (1, 0xff00)] 0x12201000 0x0)) 2 =
      some (0xff00f, some ⟨.ok, 0x12, 0x0⟩) := by decide
theorem test_xor_V7_8 :
    look (step (start 20 .w8 [(0, 0xabcde)] 0x12000000 0x0)) 0 =
      some (0, some ⟨.ok, 0x12, 0x0⟩) := by decide
theorem test_or_V7_9 :
    look (step (start 20 .w8 [(0, 0xabcde)] 0x11300000 0x0)) 3 =
      some (0xabcde, some ⟨.ok, 0x11, 0x0⟩) := by decide
theorem test_not_V7_11 :
    look (step (start 20 .w8 [(0, 0)] 0x13200000 0x0)) 2 =
      some (0xfffff, some ⟨.ok, 0x13, 0x0⟩) := by decide
theorem test_not_V7_15 :
    look (step (start 256 .w32 [(0, 0)] 0x13200000 0x0)) 2 =
      some (0xffffffffffffffffffffffffffffffffffffffffffffffffffffffffffffffff, some ⟨.ok, 0x13, 0x0⟩) := by decide
theorem test_shl_V7_24 :
    look (step (start 20 .w8 [(0, 0xabcdf), (1, 9)] 0x14201000 0x0)) 2 =
      some (0x9be00, some ⟨.ok, 0x14, 0x0⟩) := by decide
theorem test_shl_V7_29 :
    look (step (start 20 .w8 [(0, 0xabcdf), (1, 0xfffff)] 0x14201000 0x0)) 2 =
      some (0, some ⟨.ok, 0x14, 0x0⟩) := by decide
theorem test_shr_V7_35 :
    look (step (start 20 .w8 [(0, 0xabcdf), (1, 9)] 0x15201000 0x0)) 2 =
      some (0x55e, some ⟨.ok, 0x15, 0x0⟩) := by decide
theorem test_shr_V7_44 :
    look (step (start 20 .w8 [(0, 0xfffff), (1, 0x100)] 0x15201000 0x0)) 2 =
      some (0, some ⟨.ok, 0x15, 0x0⟩) := by decide

/-! ### Limb level: the traces of the rules -/

theorem test_ripple_carry_trace_R112 :
    rippleCarry 8 [0xFF, 0xFF, 0x0F] [0x01, 0x00, 0x00] 0 = ([0x00, 0x00, 0x10], 0) := by decide
theorem test_schoolbook_trace_R131 :
    mulIntermediate ⟨16, .w8⟩ [0x34, 0x12] [0x78, 0x56] = [0x60, 0x00, 0x26, 0x06] := by decide
theorem test_long_division_trace_R146 : longDivide 5 17 5 = (3, 2) := by decide
/-- The same trace part way: after the iteration for bit 1, r = 3 and q = 0b00010. -/
theorem test_long_division_part_R146 : divBits 17 5 1 4 (0, 0) = (2, 3) ∧ trialRemainder 17 0 3 = 7 := by decide
theorem test_limb_division_trace_R146 : divLimbs ⟨5, .w8⟩ [17] [5] = ([3], [2]) := by decide
theorem test_comparator_example_R156 : compareLimbs [0x00, 0x00, 0x01] [0xFF, 0xFF, 0x00] = .gt := by decide
theorem test_not_example_R174 : notLimbs ⟨20, .w8⟩ [0x45, 0x23, 0x01] = [0xBA, 0xDC, 0x0E] := by decide
theorem test_shl_example_R178 : shlLimbs ⟨20, .w8⟩ [0xDE, 0xBC, 0x0A] 12 = [0x00, 0xE0, 0x0D] := by decide
theorem test_limbs_little_endian_R41 :
    limbs ⟨256, .w32⟩ 0x1122334455667788 = [0x55667788, 0x11223344, 0, 0, 0, 0, 0, 0] := by decide

/-! ### Syntax of the assembler, relations, reset, first step -/

theorem test_asm_add : asmText 0 (.add 2 0 15) = "ADD v2, v0, v15" := by decide
theorem test_asm_ldn : asmText 1000 (.ldn 8 .b16) = "LDN.16 v8, #1000" := by decide
theorem test_relation_lt : Relation.lt.onCmp 1 = true := by decide
theorem test_relation_ge : Relation.ge.onCmp 1 = false := by decide
theorem test_issue_runs_first_after_reset :
    look (step (State.reset.withFetchWord 32 0x06000000)) 0 = some (1, some ⟨.ok, 0x06, 0⟩) := by decide

/-! ### Witnesses: the hypotheses of the statements can be met, at the edges of their ranges -/

/-- DecodeOfEncode, EncodeOfDecode. -/
theorem wit_wellFormed_and_round_trip :
    (Instr.rdl 1 7).wellFormed ⟨256, .w32⟩ = true ∧ decode ⟨256, .w32⟩ (encode (.rdl 1 7)) = some (.rdl 1 7) := by
  decide

/-- Ready states: UnassignedOpcodeFails, IllegalExactlyWhenNoCommandIsSpelled, EveryCommandIsAnsweredOnce,
ErrorsHaveExactlyTheListedCauses, RunAnswersAllCommandsInOrder. -/
theorem ready_start (word : Word) (din : Data) : Ready (start 20 .w8 [] word din) ⟨word, din⟩ [] :=
  ⟨rfl, rfl, rfl⟩

/-- UnassignedOpcodeFails, at the ends of the four ranges. -/
theorem wit_unassigned_opcodes : ∀ w ∈ ([0x00000000, 0x09000000, 0x0FFFFFFF, 0x16000000, 0x1F000001, 0x26000000, 0xFFFFFFFF] : List Word),
    let o := w.toNat / 2 ^ 24
    o = 0x00 ∨ (0x09 ≤ o ∧ o ≤ 0x0F) ∨ (0x16 ≤ o ∧ o ≤ 0x1F) ∨ 0x26 ≤ o := by simp

/-- IllegalExactlyWhenNoCommandIsSpelled: index L-1, index L, a nonzero unused field. -/
theorem wit_spells : Spells ⟨20, .w8⟩ 0x25200002 ∧ ¬ Spells ⟨20, .w8⟩ 0x25200003 ∧ ¬ Spells ⟨20, .w8⟩ 0x01201001 := by
  unfold Spells; decide

/-- StepRunsDecodedCommand. -/
theorem wit_step_runs : Ready (start 20 .w8 [] 0x04201000 0) ⟨0x04201000, 0⟩ [] ∧
    decode (start 20 .w8 [] 0x04201000 0).cfg 0x04201000 = some (.div 2 0 1) := by
  exact ⟨ready_start _ _, by decide⟩

/-- ResetClearsRegisters. -/
theorem wit_reset_requested :
    let s : State := { start 20 .w8 [(0, 5)] 0x04201000 0 with resetReq := true }
    s.cfg.ok = true ∧ s.resetReq = true ∧ s.pending ≠ [] ∧ look (step s) 0 = some (0, none) := by decide

/-- NothingHappensWithoutACommand. -/
theorem wit_idle : let s := State.reset
    s.cfg.ok = true ∧ s.resetReq = false ∧ s.pending = [] ∧ step s = .next s := ⟨by decide, rfl, rfl, rfl⟩

/-- OnlyImpossibleBuildsAreRefused, DerivedConstants, at the ends of the range of N. -/
theorem wit_impossible_builds :
    (∀ c ∈ ([⟨0, .w8⟩, ⟨4096 * 8 + 1, .w8⟩] : List Config), ¬ (1 ≤ c.N ∧ c.N ≤ 4096 * c.limb.bits)) ∧
    (∀ c ∈ ([⟨1, .w8⟩, ⟨4096 * 8, .w8⟩, ⟨4096 * 64, .w64⟩] : List Config), c.ok = true ∧ 1 ≤ c.N ∧ c.N ≤ 4096 * c.limb.bits) := by
  decide

/-- A state in range with the largest value, one and zero in registers, and its step:
StepKeepsRegistersInRange, TopLimbStaysCanonical, StepKeepsBuildParameters, SubWrapsModulo,
IncDecWrapModulo, NotComplementsWithinN, ShrShiftsByTheWholeAmount. -/
theorem wit_invariant :
    InvariantB (start 20 .w8 [(0, 0xFFFFF), (1, 1)] 0x01201000 0) ∧
    (start 20 .w8 [(0, 0xFFFFF), (1, 1)] 0x01201000 0).cfg.ok = true ∧
    (look (step (start 20 .w8 [(0, 0xFFFFF), (1, 1)] 0x01201000 0)) 0).isSome = true := by
  unfold InvariantB; decide

/-- FailedCommandLeavesNoTrace. -/
theorem wit_failed_step :
    look (step (start 20 .w8 [(0, 0x11), (2, 0x77)] 0x04201000 0)) 2 = some (0x77, some ⟨.divzero, 0x04, 0⟩) := by decide

/-- ErrorsHaveExactlyTheListedCauses: each cause can occur. -/
theorem wit_error_causes :
    (start 20 .w8 [(0, 0x11)] 0x04201000 0).v 1 = 0 ∧
    2 ^ 20 ≤ (0x100000 : Data).toNat % 2 ^ (8 * 2 ^ NativeSize.b32.sel.toNat) ∧
    ((2 : Fin 4096).val = Config.L ⟨20, .w8⟩ - 1 ∧ Config.topMask ⟨20, .w8⟩ < (0x10 : Data).toNat % 2 ^ Config.W ⟨20, .w8⟩) := by
  decide

/-- OverflowIsNoError. -/
theorem wit_never_fails : (Instr.rdl 0 2).wellFormed ⟨20, .w8⟩ = true ∧ canFail (.rdl 0 2) = false ∧
    canFail (.add 0 0 0) = false := by decide

/-- LimbWidthShowsOnlyInLimbAccess. -/
theorem wit_two_limb_widths :
    let s := start 20 .w8 [(0, 7)] 0x01201000 0
    let u := start 20 .w64 [(0, 7)] 0x01201000 0
    seesLimbs (.add 2 0 1) = false ∧ s.cfg.N = u.cfg.N ∧ s.regs = u.regs ∧ s.din = u.din ∧ s.cfg ≠ u.cfg := by decide

/-- OverlapIsComputeThenReplace: both sources are the destination. -/
theorem wit_retarget : writes (.mul 3 3 3) = some 3 ∧ Instr.retarget 4 (.mul 3 3 3) = some (.mul 4 3 3) := by
  decide

/-- ResultDependsOnNamedOperandsOnly. -/
theorem wit_agree_on_operands :
    let s := start 20 .w8 [(0, 7), (5, 1)] 0x01201000 0
    let u := start 20 .w8 [(0, 7), (5, 2)] 0x01201000 0
    s.cfg = u.cfg ∧ s.din = u.din ∧ (∀ q ∈ reads (.add 2 0 1), s.v q = u.v q) ∧ s.v 5 ≠ u.v 5 := by decide

/-- LdnLoadsExactlyOrFails, NativeRoundTrip: the largest value that loads and the smallest that does not. -/
theorem wit_native_values :
    let fits : Command := ⟨0x21100002, 0xFFFFF⟩
    let tooWide : Command := ⟨0x21100002, 0x100000⟩
    fits.din.toNat % 2 ^ (8 * 2 ^ NativeSize.b32.sel.toNat) < 2 ^ 20 ∧
    2 ^ 20 ≤ tooWide.din.toNat % 2 ^ (8 * 2 ^ NativeSize.b32.sel.toNat) := by decide

/-- RdlReturnsOneLimb, WrlReplacesOneLimb, OutOfRangeLimbTermsAnswerIllegal: index L, and its step. -/
theorem wit_limb_index_L :
    (Config.L ⟨20, .w8⟩ ≤ (3 : Fin 4096).val) ∧ Ready (start 20 .w8 [] 0x24010003 0) ⟨0x24010003, 0⟩ [] ∧
    (0x24010003 : Word) = hexWord 0x24 0 1 0 3 ∧ Ready (start 20 .w8 [] 0x25100003 0) ⟨0x25100003, 0⟩ [] ∧
    (0x25100003 : Word) = hexWord 0x25 1 0 0 3 :=
  ⟨by decide, ready_start _ _, by decide, ready_start _ _, by decide⟩

/-- WrlReplacesOneLimb, LimbRoundTrip, RdlReturnsOneLimb: a lower limb above TOPMASK, the top limb at TOPMASK and above it, index L. -/
theorem wit_wrl_cases :
    let c : Config := ⟨20, .w8⟩
    (1 < c.L ∧ ¬ (1 = c.L - 1 ∧ c.topMask < 0xFF)) ∧ (2 < c.L ∧ ¬ (2 = c.L - 1 ∧ c.topMask < 0x0F)) ∧
    (2 = c.L - 1 ∧ 2 < c.L ∧ c.topMask < 0x10) ∧ c.L ≤ 3 := by decide

/-- AnyValueIsBuiltFromLimbs. -/
theorem wit_built_from_limbs :
    let c : Config := ⟨20, .w8⟩
    let wrls : List Command :=
      [2, 0, 1].map (fun i => ⟨hexWord 0x25 4 0 0 i, BitVec.ofNat 64 (0xABCDE / 2 ^ (c.W * i) % 2 ^ c.W)⟩)
    let s : State := { State.resetOf c with pending := ⟨hexWord 0x20 4 0 0 0, 0⟩ :: wrls }
    s.cfg.ok = true ∧ s.resetReq = false ∧ 0xABCDE < 2 ^ s.cfg.N ∧ [2, 0, 1].Perm (List.range s.cfg.L) ∧
    look (runFor 4 s) 4 = some (0xABCDE, some ⟨.ok, 0x25, 0⟩) := by decide

/-- The hypotheses of the limb-level statements and of the laws, at the largest values. -/
theorem wit_values_in_range :
    let c : Config := ⟨20, .w8⟩
    c.ok = true ∧ 0xFFFFF < 2 ^ c.N ∧ 0 < 0xFFFFF ∧ 19 < c.N := by decide

/-- DivWritesTheQuotient, ModWritesTheRemainder. -/
theorem wit_divisors : (start 20 .w8 [(0, 17), (1, 5)] 0x04201000 0).v 1 ≠ 0 ∧
    (start 20 .w8 [(0, 17)] 0x04201000 0).v 1 = 0 := by decide

end Sys2Proof.Tests
end

/-! ### The derived constants of an engine (00_scope.md R4, R6) -/

namespace Sys2Proof

theorem Config.ok_iff (c : Config) : c.ok = true ↔ 0 < c.N ∧ c.N ≤ 4096 * c.W := by
  simp [Config.ok]

/-- L is the ceiling of `N / W`: the least number of limbs that hold N bits. -/
theorem Config.L_le_iff (c : Config) (k : Nat) : c.L ≤ k ↔ c.N ≤ k * c.W := by
  have hW := Machine.Config.W_pos c
  rw [Config.L, ← Nat.ceilDiv_eq_add_pred_div, ceilDiv_le_iff_le_smul hW, smul_eq_mul, Nat.mul_comm]

section
variable {c : Config} (hN : 0 < c.N)
include hN

theorem Config.L_pos : 0 < c.L := by
  have h : ¬ c.L ≤ 0 := by rw [c.L_le_iff]; omega
  omega

/-- The limbs below the top one do not hold N bits. -/
theorem Config.pred_L_mul_W_lt : (c.L - 1) * c.W < c.N := by
  have hL := Config.L_pos hN
  exact Nat.lt_of_not_le fun h => absurd ((c.L_le_iff _).2 h) (by omega)

theorem Config.N_eq_add_T : c.N = (c.L - 1) * c.W + c.T :=
  (Nat.add_sub_of_le (Config.pred_L_mul_W_lt hN).le).symm

theorem Config.T_pos : 0 < c.T := Nat.sub_pos_of_lt (Config.pred_L_mul_W_lt hN)

theorem Config.T_le_W : c.T ≤ c.W := by
  have hle : c.N ≤ c.L * c.W := (c.L_le_iff _).1 le_rfl
  have hsplit : c.L * c.W = (c.L - 1) * c.W + c.W := by
    rw [← Nat.succ_mul, Nat.succ_eq_add_one, Nat.sub_add_cancel (Config.L_pos hN)]
  have := Config.N_eq_add_T hN
  omega

/-- The top limb is full exactly when the limbs divide the N bits evenly. -/
theorem Config.T_eq_W_iff : c.T = c.W ↔ c.W ∣ c.N := by
  have hsplit := Config.N_eq_add_T hN
  have hdvd : c.W ∣ c.N ↔ c.W ∣ c.T := by
    rw [hsplit, Nat.dvd_add_right (Nat.dvd_mul_left _ _)]
  rw [hdvd]
  constructor
  · intro h; rw [h]
  · intro h; exact Nat.le_antisymm (Config.T_le_W hN) (Nat.le_of_dvd (Config.T_pos hN) h)

end

/-- LIMBMAX as a mask keeps every limb value. -/
theorem Config.and_limbMax (c : Config) {x : Nat} (hx : x ≤ c.limbMax) : x &&& c.limbMax = x := by
  have := Nat.two_pow_pos c.W
  rw [Config.limbMax] at hx ⊢
  rw [Nat.and_two_pow_sub_one_eq_mod, Nat.mod_eq_of_lt (by omega)]

/-- Settles O17: the bounds on L are those of a ceiling, and T is what the lower limbs leave of N. -/
theorem derivedConstants : Obligations.DerivedConstants := by
  intro c hok
  obtain ⟨hN, hmax⟩ := c.ok_iff.1 hok
  refine ⟨Config.L_pos hN, (c.L_le_iff _).2 hmax, Config.pred_L_mul_W_lt hN, (c.L_le_iff _).1 le_rfl,
    Config.N_eq_add_T hN, Config.T_pos hN, Config.T_le_W hN, Config.T_eq_W_iff hN, rfl, rfl, rfl, ?_⟩
  intro hdvd
  have htop : c.topMask = c.limbMax := by
    rw [Config.topMask, (Config.T_eq_W_iff hN).2 hdvd, Config.limbMax]
  exact ⟨htop, fun x hx => by rw [htop, c.and_limbMax hx]⟩

end Sys2Proof

/-! ### How a command can end, and what a step keeps (00_scope.md R5, R10) -/

namespace Sys2Proof.Machine

/-- The ways the command `i` ends from `s` (00_scope.md R10): it writes its destination register, it
returns data, or it fails with an error. A failure is one of the commands that can fail, or a limb index
no engine of this configuration has (log 8). -/
inductive Ends (i : Instr) (s : State) : State → Prop
  | completes (vd : VReg) (x : Nat) (hw : writes i = some vd) : Ends i s (s.complete vd x i.opcode)
  | returns (d : Data) (hd : returnsData i = true) : Ends i s (s.respond i.opcode d)
  | fails (e : Err) (he : e ≠ .ok) (hi : canFail i = true ∨ i.wellFormed s.cfg = false) :
      Ends i s (s.raise e i.opcode)

/-- Every command ends, in one of these ways. -/
theorem exec_ends (i : Instr) (s : State) : ∃ t, exec i s = .next t ∧ Ends i s t := by
  cases i with
  | div vd vs1 vs2 | mod vd vs1 vs2 =>
    simp only [exec, execDiv, execMod]
    split
    · exact ⟨_, rfl, .fails .divzero (by decide) (.inl rfl)⟩
    · exact ⟨_, rfl, .completes vd _ rfl⟩
  | ldn vd sz =>
    simp only [exec, execLdn]
    split
    · exact ⟨_, rfl, .fails .trunc (by decide) (.inl rfl)⟩
    · exact ⟨_, rfl, .completes vd _ rfl⟩
  | rdl vs1 idx =>
    simp only [exec, execRdl]
    split
    · next h => exact ⟨_, rfl, .fails .illegal (by decide) (.inr (decide_eq_false (Nat.not_lt.2 h)))⟩
    · exact ⟨_, rfl, .returns _ rfl⟩
  | wrl vd idx =>
    simp only [exec, execWrl]
    split
    · exact ⟨_, rfl, .fails .illegal (by decide) (.inl rfl)⟩
    · split
      · exact ⟨_, rfl, .fails .trunc (by decide) (.inl rfl)⟩
      · exact ⟨_, rfl, .completes vd _ rfl⟩
  | cmp vs1 vs2 | stn vs1 sz => exact ⟨_, rfl, .returns _ rfl⟩
  | _ => exact ⟨_, rfl, .completes _ _ rfl⟩

theorem Ends.cfg_eq {i : Instr} {s t : State} (h : Ends i s t) : t.cfg = s.cfg := by
  cases h <;> rfl

theorem exec_cfg {i : Instr} {s t : State} (h : exec i s = .next t) : t.cfg = s.cfg := by
  obtain ⟨t', ht', hends⟩ := exec_ends i s
  obtain rfl : t' = t := Host.Outcome.next.inj (ht'.symm.trans h)
  exact hends.cfg_eq

theorem step_cfg {s t : State} (h : step s = .next t) : t.cfg = s.cfg := by
  obtain ⟨-, ⟨-, rfl⟩ | ⟨-, -, rfl⟩ | ⟨c, rest, -, -, rfl⟩ | ⟨c, rest, i, -, -, hexec⟩⟩ := step_next_cases h
  · exact State.cfg_applyReset s
  · rfl
  · rfl
  · exact (exec_cfg hexec).trans (State.cfg_accept s c rest)

/-- Settles O16: no step changes the configuration, of which N and W are read. -/
theorem stepKeepsBuildParameters : Obligations.StepKeepsBuildParameters := by
  intro s t h
  rw [step_cfg h]
  exact ⟨rfl, rfl⟩

theorem runCommand_of_decode {s : State} {c : Command} {rest : List Command} {i : Instr}
    (h : decode s.cfg c.word = some i) : runCommand c rest s = exec i (s.accept c rest) := by
  simp only [runCommand, h]

/-- Settles O5: a step of a ready state runs its command, and the state it presents is `accept`'s. -/
theorem stepRunsDecodedCommand : Obligations.StepRunsDecodedCommand := by
  intro s c rest i hready hdec
  rw [step_ready hready, runCommand_of_decode hdec]
  rfl

/-! ### Two engines side by side (00_scope.md R5, R12) -/

/-- The outcome `o` from `s` and the outcome `o'` from `u` leave the same registers and add the same
response. -/
def EndAlike (s u : State) (o o' : Host.Outcome State Fault Refusal) : Prop :=
  ∃ (t t' : State) (r : Response), o = .next t ∧ o' = .next t' ∧ t.regs = t'.regs ∧
    t.responses = s.responses ++ [r] ∧ t'.responses = u.responses ++ [r]

section
variable {s u : State} (hregs : s.regs = u.regs)
include hregs

theorem State.v_eq_of_regs (r : VReg) : s.v r = u.v r := by
  rw [State.v, State.v, hregs]

theorem endAlike_complete (vd : VReg) (x : Nat) (op : Byte) :
    EndAlike s u (.next (s.complete vd x op)) (.next (u.complete vd x op)) :=
  ⟨_, _, ⟨.ok, op, 0⟩, rfl, rfl, congrArg (·.set vd x) hregs, rfl, rfl⟩

theorem endAlike_respond (op : Byte) (d : Data) :
    EndAlike s u (.next (s.respond op d)) (.next (u.respond op d)) :=
  ⟨_, _, ⟨.ok, op, d⟩, rfl, rfl, hregs, rfl, rfl⟩

theorem endAlike_raise (e : Err) (op : Byte) :
    EndAlike s u (.next (s.raise e op)) (.next (u.raise e op)) :=
  ⟨_, _, ⟨e, op, 0⟩, rfl, rfl, hregs, rfl, rfl⟩

end

/-- Settles O22: the 18 commands read N, registers and the data-in value only, so both engines test the
same condition, where there is one, and end with the same value. -/
theorem limbWidthShowsOnlyInLimbAccess : Obligations.LimbWidthShowsOnlyInLimbAccess := by
  intro i s u hi hN hregs hdin
  have hv := State.v_eq_of_regs hregs
  have hx : ∀ sz, s.nativeValue sz = u.nativeValue sz := fun sz => by
    rw [State.nativeValue, State.nativeValue, hdin]
  change EndAlike s u (exec i s) (exec i u)
  cases i with
  | rdl vs1 idx | wrl vd idx => cases hi
  | cmp vs1 vs2 | stn vs1 sz =>
    simp only [exec, execCmp, execStn, hv]
    exact endAlike_respond hregs _ _
  | div vd vs1 vs2 | mod vd vs1 vs2 =>
    simp only [exec, execDiv, execMod, hv]
    split
    · exact endAlike_raise hregs _ _
    · exact endAlike_complete hregs _ _ _
  | ldn vd sz =>
    simp only [exec, execLdn, hN, hx]
    split
    · exact endAlike_raise hregs _ _
    · exact endAlike_complete hregs _ _ _
  | _ =>
    simp only [exec, execAdd, execSub, execMul, execInc, execDec, execAnd, execOr, execXor, execNot,
      execShl, execShr, execZero, execLdnt, State.shiftAmount, hN, hv, hx]
    exact endAlike_complete hregs _ _ _

end Sys2Proof.Machine

/-! ### The range of the registers and the limbs of a value (10_state.md R20 to R23) -/

namespace Sys2Proof.Machine

/-! #### The result of every operator is in range -/

theorem addWrap_lt (N a b : Nat) : addWrap N a b < 2 ^ N := Nat.mod_lt _ (Nat.two_pow_pos N)

theorem subWrap_lt (N a b : Nat) : subWrap N a b < 2 ^ N := by
  have hpos : (0 : Int) < (2 ^ N : Nat) := Int.natCast_pos.2 (Nat.two_pow_pos N)
  exact (Int.toNat_lt_of_ne_zero (Nat.two_pow_pos N).ne').2 (Int.emod_lt_of_pos _ hpos)

theorem mulWrap_lt (N a b : Nat) : mulWrap N a b < 2 ^ N := Nat.mod_lt _ (Nat.two_pow_pos N)

theorem notVal_lt (N a : Nat) : notVal N a < 2 ^ N := by
  have := Nat.two_pow_pos N
  rw [notVal]
  omega

theorem shlVal_lt (N a k : Nat) : shlVal N a k < 2 ^ N := by
  rw [shlVal]
  split
  · exact Nat.two_pow_pos N
  · exact Nat.mod_lt _ (Nat.two_pow_pos N)

theorem shrVal_lt {N a : Nat} (k : Nat) (ha : a < 2 ^ N) : shrVal N a k < 2 ^ N := by
  rw [shrVal]
  split
  · exact Nat.two_pow_pos N
  · exact (Nat.div_le_self _ _).trans_lt ha

/-! #### Every step keeps the range -/

/-- The limb WRL writes is a limb value. -/
theorem State.limbValue_lt (s : State) : s.limbValue < 2 ^ s.cfg.W := Nat.mod_lt _ (Nat.two_pow_pos _)

theorem State.complete_inv {s : State} (h : InvariantB s) (vd : VReg) {x : Nat} (hx : x < 2 ^ s.cfg.N)
    (op : Byte) : InvariantB (s.complete vd x op) := State.emit_inv (State.setV_inv h vd hx) _ _ _

theorem exec_next_inv (i : Instr) {s : State} (h : InvariantB s) :
    ∃ t, exec i s = .next t ∧ InvariantB t := by
  have hraise (e : Err) (op : Byte) : InvariantB (s.raise e op) := State.emit_inv h e op 0
  have hrespond (op : Byte) (d : Data) : InvariantB (s.respond op d) := State.emit_inv h .ok op d
  cases i with
  | add vd vs1 vs2 => exact ⟨_, rfl, State.complete_inv h vd (addWrap_lt ..) _⟩
  | sub vd vs1 vs2 => exact ⟨_, rfl, State.complete_inv h vd (subWrap_lt ..) _⟩
  | mul vd vs1 vs2 => exact ⟨_, rfl, State.complete_inv h vd (mulWrap_lt ..) _⟩
  | div vd vs1 vs2 =>
    simp only [exec, execDiv]
    split
    · exact ⟨_, rfl, hraise _ _⟩
    · exact ⟨_, rfl, State.complete_inv h vd ((Nat.div_le_self _ _).trans_lt (h vs1)) _⟩
  | mod vd vs1 vs2 =>
    simp only [exec, execMod]
    split
    · exact ⟨_, rfl, hraise _ _⟩
    · exact ⟨_, rfl, State.complete_inv h vd ((Nat.mod_le _ _).trans_lt (h vs1)) _⟩
  | inc vd vs1 => exact ⟨_, rfl, State.complete_inv h vd (addWrap_lt ..) _⟩
  | dec vd vs1 => exact ⟨_, rfl, State.complete_inv h vd (subWrap_lt ..) _⟩
  | cmp vs1 vs2 | stn vs1 sz => exact ⟨_, rfl, hrespond _ _⟩
  | and vd vs1 vs2 => exact ⟨_, rfl, State.complete_inv h vd (Nat.and_lt_two_pow _ (h vs2)) _⟩
  | or vd vs1 vs2 => exact ⟨_, rfl, State.complete_inv h vd (Nat.or_lt_two_pow (h vs1) (h vs2)) _⟩
  | xor vd vs1 vs2 => exact ⟨_, rfl, State.complete_inv h vd (Nat.xor_lt_two_pow (h vs1) (h vs2)) _⟩
  | not vd vs1 => exact ⟨_, rfl, State.complete_inv h vd (notVal_lt ..) _⟩
  | shl vd vs1 vs2 => exact ⟨_, rfl, State.complete_inv h vd (shlVal_lt ..) _⟩
  | shr vd vs1 vs2 => exact ⟨_, rfl, State.complete_inv h vd (shrVal_lt _ (h vs1)) _⟩
  | zero vd => exact ⟨_, rfl, State.complete_inv h vd (Nat.two_pow_pos _) _⟩
  | ldn vd sz =>
    simp only [exec, execLdn]
    split
    · exact ⟨_, rfl, hraise _ _⟩
    · next hx => exact ⟨_, rfl, State.complete_inv h vd (Nat.not_le.1 hx) _⟩
  | ldnt vd sz => exact ⟨_, rfl, State.complete_inv h vd (Nat.mod_lt _ (Nat.two_pow_pos _)) _⟩
  | rdl vs1 idx =>
    simp only [exec, execRdl]
    split
    · exact ⟨_, rfl, hraise _ _⟩
    · exact ⟨_, rfl, hrespond _ _⟩
  | wrl vd idx =>
    simp only [exec, execWrl]
    split
    · exact ⟨_, rfl, hraise _ _⟩
    · next hidx =>
      split
      · exact ⟨_, rfl, hraise _ _⟩
      · next htop =>
        exact ⟨_, rfl, State.emit_inv (State.memWrite_inv h vd (Nat.not_le.1 hidx) s.limbValue_lt
          fun he => Nat.not_lt.1 fun hgt => htop ⟨he, hgt⟩) _ _ _⟩

theorem exec_inv {i : Instr} {s t : State} (h : InvariantB s) (hexec : exec i s = .next t) :
    InvariantB t := by
  obtain ⟨t', ht', hinv⟩ := exec_next_inv i h
  obtain rfl : t' = t := Host.Outcome.next.inj (ht'.symm.trans hexec)
  exact hinv

/-- Settles O13: a reset writes zeros, an idle or illegal step writes nothing, and a command writes a
value its operator keeps in range. -/
theorem stepKeepsRegistersInRange : Obligations.StepKeepsRegistersInRange := by
  intro s t h hstep
  obtain ⟨-, ⟨-, rfl⟩ | ⟨-, -, rfl⟩ | ⟨c, rest, -, -, rfl⟩ | ⟨c, rest, i, -, -, hexec⟩⟩ := step_next_cases hstep
  · exact s.applyReset_inv
  · exact h
  · exact State.emit_inv (State.accept_inv h c rest) _ _ _
  · exact exec_inv (State.accept_inv h c rest) hexec

/-! #### A value and its limbs -/

/-- The lowest `n` limbs of a number spell its lowest `n * W` bits. -/
theorem limbsVal_map_range (W n x : Nat) :
    limbsVal W ((List.range n).map fun i => x / 2 ^ (W * i) % 2 ^ W) = x % 2 ^ (W * n) := by
  induction n generalizing x with
  | zero => simp [limbsVal, Nat.mod_one]
  | succ n ih =>
    have hdiv (i : Nat) : x / 2 ^ (W * (i + 1)) = x / 2 ^ W / 2 ^ (W * i) := by
      rw [Nat.div_div_eq_div_mul, ← Nat.pow_add, Nat.mul_succ, Nat.add_comm]
    have htail : limbsVal W ((List.range n).map fun i => x / 2 ^ (W * (i + 1)) % 2 ^ W) =
        x / 2 ^ W % 2 ^ (W * n) := by
      simp only [hdiv]
      exact ih (x / 2 ^ W)
    have hhead : x / 2 ^ (W * 0) = x := by simp
    rw [List.range_succ_eq_map, List.map_cons, List.map_map, hhead]
    change x % 2 ^ W + 2 ^ W * limbsVal W ((List.range n).map fun i => x / 2 ^ (W * (i + 1)) % 2 ^ W) = _
    rw [htail, Nat.mul_succ, Nat.add_comm (W * n), Nat.pow_add, Nat.mod_mul]

/-- A value of the type is the number its limbs spell (00_scope.md R10). -/
theorem limbsVal_limbs (c : Config) {x : Nat} (hx : x < 2 ^ c.N) : limbsVal c.W (limbs c x) = x := by
  have hle : c.N ≤ c.W * c.L := Nat.mul_comm c.L c.W ▸ (c.L_le_iff c.L).1 le_rfl
  rw [limbs, limbsVal_map_range,
    Nat.mod_eq_of_lt (hx.trans_le (Nat.pow_le_pow_right Nat.two_pos hle))]

/-- The top limb of a value of the type is at most TOPMASK. -/
theorem topLimb_le_topMask {c : Config} (hN : 0 < c.N) {x : Nat} (hx : x < 2 ^ c.N) :
    x / 2 ^ (c.W * (c.L - 1)) ≤ c.topMask := by
  refine Nat.le_sub_one_of_lt ((Nat.div_lt_iff_lt_mul (Nat.two_pow_pos _)).2 ?_)
  rwa [← Nat.pow_add, Nat.add_comm, Nat.mul_comm, ← Config.N_eq_add_T hN]

/-! #### The state right after reset (10_state.md R30) -/

@[simp] theorem State.v_resetOf (c : Config) (r : VReg) : (State.resetOf c).v r = 0 := by
  simp [State.v, State.resetOf]

@[simp] theorem State.memRead_resetOf (c : Config) (r : VReg) (i : Nat) :
    (State.resetOf c).memRead r i = 0 := by
  simp [State.memRead]

theorem State.resetOf_inv (c : Config) : InvariantB (State.resetOf c) := fun r => by simp

/-- Settles O15: every register is zero, so every limb is, and zero is in range. -/
theorem resetStateIsZero : Obligations.ResetStateIsZero :=
  ⟨fun c r => ⟨State.v_resetOf c r, State.memRead_resetOf c r⟩, State.resetOf_inv,
    State.v_resetOf Config.ofReset, State.resetOf_inv Config.ofReset⟩

/-- Settles O14: the registers stay in range (O13), and a value in range has a top limb of at most
TOPMASK and is the number its limbs spell. -/
theorem topLimbStaysCanonical : Obligations.TopLimbStaysCanonical := by
  refine ⟨fun c r => by simp, fun s t h hstep r => ?_⟩
  have hN : 0 < t.cfg.N := by
    rw [step_cfg hstep]
    exact (s.cfg.ok_iff.1 (step_next_cases hstep).1).1
  have hr : t.v r < 2 ^ t.cfg.N := stepKeepsRegistersInRange s t h hstep r
  exact ⟨(Nat.mod_le _ _).trans (topLimb_le_topMask hN hr), limbsVal_limbs t.cfg hr⟩

end Sys2Proof.Machine

/-! ### What a command writes and what it depends on (10_state.md R29, R31) -/

namespace Sys2Proof.Machine

/-- A limb is read from its register and the configuration. -/
theorem State.memRead_congr {s t : State} {r : VReg} (hcfg : t.cfg = s.cfg) (hv : t.v r = s.v r) (i : Nat) :
    t.memRead r i = s.memRead r i := by
  rw [State.memRead, State.memRead, hcfg, hv]

/-- However a command ends, it adds one response, writes no register but its destination, and none when
the response is an error. -/
theorem Ends.frame {i : Instr} {s t : State} (h : Ends i s t) :
    ∃ r, t.responses = s.responses ++ [r] ∧ (∀ q, writes i ≠ some q → t.v q = s.v q) ∧
      (r.err ≠ .ok → ∀ q, t.v q = s.v q) ∧ SameElse s t := by
  cases h with
  | completes vd x hw =>
    obtain ⟨-, hother, hresp, hsame⟩ := s.complete_wrote vd x i.opcode
    exact ⟨_, hresp, fun q hq => hother q fun he => hq (he ▸ hw), fun he => absurd rfl he, hsame⟩
  | returns d hd =>
    obtain ⟨hv, hresp, hsame⟩ := s.respond_answered d i.opcode
    exact ⟨_, hresp, fun q _ => hv q, fun _ => hv, hsame⟩
  | fails e he hi =>
    obtain ⟨hv, hresp, hsame⟩ := s.raise_failed e i.opcode
    exact ⟨_, hresp, fun q _ => hv q, fun _ => hv, hsame⟩

/-- Settles O21: by the ways a command can end; a limb follows its register. -/
theorem onlyTheDestinationIsWritten : Obligations.OnlyTheDestinationIsWritten := by
  intro i s
  obtain ⟨t, hexec, hends⟩ := exec_ends i s
  obtain ⟨r, hresp, hv, hfail, hsame⟩ := hends.frame
  exact ⟨t, r, hexec, hresp, fun q hq => ⟨hv q hq, State.memRead_congr hends.cfg_eq (hv q hq)⟩, hfail, hsame⟩

/-- The outcome `o` of `i` from `s` and the outcome `o'` from `u` add the same response and, where it is
no error, leave the same value in the destination. -/
def ResultAlike (i : Instr) (s u : State) (o o' : Host.Outcome State Fault Refusal) : Prop :=
  ∃ (t t' : State) (r : Response), o = .next t ∧ o' = .next t' ∧
    t.responses = s.responses ++ [r] ∧ t'.responses = u.responses ++ [r] ∧
    (r.err = .ok → ∀ d, writes i = some d → t.v d = t'.v d)

section
variable {i : Instr} (s u : State) (op : Byte)

theorem resultAlike_complete {vd : VReg} (x : Nat) (hw : writes i = some vd) :
    ResultAlike i s u (.next (s.complete vd x op)) (.next (u.complete vd x op)) := by
  refine ⟨_, _, ⟨.ok, op, 0⟩, rfl, rfl, rfl, rfl, fun _ d hd => ?_⟩
  obtain rfl : vd = d := Option.some.inj (hw.symm.trans hd)
  simp [State.complete_eq]

theorem resultAlike_respond (d : Data) (hw : writes i = none) :
    ResultAlike i s u (.next (s.respond op d)) (.next (u.respond op d)) :=
  ⟨_, _, ⟨.ok, op, d⟩, rfl, rfl, rfl, rfl, fun _ q hq => by simp [hw] at hq⟩

theorem resultAlike_raise {e : Err} (he : e ≠ .ok) :
    ResultAlike i s u (.next (s.raise e op)) (.next (u.raise e op)) :=
  ⟨_, _, ⟨e, op, 0⟩, rfl, rfl, rfl, rfl, fun h => absurd h he⟩

end

/-- Settles O23: both states test the same condition, where there is one, and end with the same value,
since each is a function of the configuration, the data-in value and the registers in `reads`. -/
theorem resultDependsOnNamedOperandsOnly : Obligations.ResultDependsOnNamedOperandsOnly := by
  intro i s u hcfg hdin hreads
  have hnative (sz : NativeSize) : s.nativeValue sz = u.nativeValue sz := by
    rw [State.nativeValue, State.nativeValue, hdin]
  have hlimb : s.limbValue = u.limbValue := by rw [State.limbValue, State.limbValue, hdin, hcfg]
  change ResultAlike i s u (exec i s) (exec i u)
  cases i with
  | div vd vs1 vs2 | mod vd vs1 vs2 =>
    have h1 : s.v vs1 = u.v vs1 := hreads vs1 (by simp [reads])
    have h2 : s.v vs2 = u.v vs2 := hreads vs2 (by simp [reads])
    simp only [exec, execDiv, execMod, h1, h2]
    split
    · exact resultAlike_raise s u _ (by decide)
    · exact resultAlike_complete s u _ _ rfl
  | cmp vs1 vs2 =>
    have h1 : s.v vs1 = u.v vs1 := hreads vs1 (by simp [reads])
    have h2 : s.v vs2 = u.v vs2 := hreads vs2 (by simp [reads])
    simp only [exec, execCmp, h1, h2]
    exact resultAlike_respond s u _ _ rfl
  | stn vs1 sz =>
    simp only [exec, execStn, hreads vs1 (by simp [reads])]
    exact resultAlike_respond s u _ _ rfl
  | ldn vd sz =>
    simp only [exec, execLdn, hcfg, hnative]
    split
    · exact resultAlike_raise s u _ (by decide)
    · exact resultAlike_complete s u _ _ rfl
  | rdl vs1 idx =>
    have h1 : s.v vs1 = u.v vs1 := hreads vs1 (by simp [reads])
    simp only [exec, execRdl, State.memRead_congr hcfg h1, hcfg]
    split
    · exact resultAlike_raise s u _ (by decide)
    · exact resultAlike_respond s u _ _ rfl
  | wrl vd idx =>
    have hd : s.v vd = u.v vd := hreads vd (by simp [reads])
    simp only [exec, execWrl, State.memWrite, State.memRead_congr hcfg hd, hcfg, hd, hlimb]
    split
    · exact resultAlike_raise s u _ (by decide)
    · split
      · exact resultAlike_raise s u _ (by decide)
      · exact resultAlike_complete s u _ _ rfl
  | zero vd => exact resultAlike_complete s u _ _ rfl
  | ldnt vd sz =>
    simp only [exec, execLdnt, hcfg, hnative]
    exact resultAlike_complete s u _ _ rfl
  | inc vd vs1 | dec vd vs1 | not vd vs1 =>
    simp only [exec, execInc, execDec, execNot, hcfg, hreads vs1 (by simp [reads])]
    exact resultAlike_complete s u _ _ rfl
  | add vd vs1 vs2 | sub vd vs1 vs2 | mul vd vs1 vs2 | and vd vs1 vs2 | or vd vs1 vs2 | xor vd vs1 vs2
  | shl vd vs1 vs2 | shr vd vs1 vs2 =>
    have h1 : s.v vs1 = u.v vs1 := hreads vs1 (by simp [reads])
    have h2 : s.v vs2 = u.v vs2 := hreads vs2 (by simp [reads])
    simp only [exec, execAdd, execSub, execMul, execAnd, execOr, execXor, execShl, execShr,
      State.shiftAmount, hcfg, h1, h2]
    exact resultAlike_complete s u _ _ rfl

end Sys2Proof.Machine

/-! ### Words and commands (30_encoding.md R61 to R67) -/

namespace Sys2Proof

/-! #### The size selector -/

@[simp] theorem sel_ofSel (b : BitVec 2) : (NativeSize.ofSel b).sel = b := by
  revert b; decide

@[simp] theorem fieldSz_pack (o : Byte) (vd vs1 vs2 : VReg) (imm : BitVec 12) :
    fieldSz (pack o vd vs1 vs2 imm) = NativeSize.ofSel (imm.extractLsb 1 0) := by
  refine congrArg NativeSize.ofSel (BitVec.eq_of_toNat_eq ?_)
  simp only [BitVec.extractLsb_toNat, toNat_pack, Nat.shiftRight_eq_div_pow]
  omega

/-- The size selector is read back from the immediate that carries it. -/
@[simp] theorem extractLsb_zero_append_sel (sz : NativeSize) : (0#10 ++ sz.sel).extractLsb 1 0 = sz.sel := by
  cases sz <;> decide

/-! #### What a mask asks of one field -/

theorem vreg_and_ones_eq_zero (a : VReg) : BitVec.ofFin (w := 4) a &&& BitVec.ofFin (w := 4) 15 = 0 ↔ 0 = a := by
  revert a; decide

theorem imm_and_ones_eq_zero (imm : BitVec 12) : imm &&& 0xFFF = 0 ↔ 0 = imm := by
  have hones : (0xFFF : BitVec 12) = BitVec.allOnes 12 := rfl
  rw [hones, BitVec.and_allOnes, eq_comm]

/-- Zero above the size selector is being the selector, zero extended. -/
theorem imm_and_above_sel_eq_zero (imm : BitVec 12) :
    imm &&& 0xFFC = 0 ↔ 0#10 ++ imm.extractLsb 1 0 = imm := by
  have hsplit : imm.extractLsb 11 2 ++ imm.extractLsb 1 0 = imm := by
    ext i hi
    rw [BitVec.getElem_append]
    grind
  generalize (imm.extractLsb 11 2 : BitVec 10) = hi at hsplit
  generalize (imm.extractLsb 1 0 : BitVec 2) = sz at hsplit ⊢
  have hmask : imm &&& 0xFFC = hi ++ 0#2 := by
    have hones : (0xFFC : BitVec 12) = BitVec.allOnes 10 ++ 0#2 := by decide
    rw [← hsplit, hones, append_and, BitVec.and_allOnes, BitVec.and_zero]
  have hzero : (0 : BitVec 12) = 0#10 ++ 0#2 := rfl
  rw [hmask, ← hsplit, hzero, BitVec.append_left_inj, BitVec.append_left_inj, eq_comm]

/-! #### A word with the must-be-zero fields of a format cleared -/

/-- The word `w` with zeros in the fields that the format fixes (R61). -/
def Format.clear (w : Word) : Format → Word
  | .A => pack (opc w) (fieldVd w) (fieldVs1 w) (fieldVs2 w) 0
  | .B => pack (opc w) (fieldVd w) (fieldVs1 w) 0 0
  | .C => pack (opc w) 0 (fieldVs1 w) (fieldVs2 w) 0
  | .D => pack (opc w) (fieldVd w) 0 0 0
  | .E => pack (opc w) (fieldVd w) 0 0 (0#10 ++ (fieldSz w).sel)
  | .F => pack (opc w) 0 (fieldVs1 w) 0 (0#10 ++ (fieldSz w).sel)
  | .G => pack (opc w) 0 (fieldVs1 w) 0 (BitVec.ofFin (fieldImm w))
  | .H => pack (opc w) (fieldVd w) 0 0 (BitVec.ofFin (fieldImm w))

theorem pack_eq_iff {o : Byte} {a b c a' b' c' : VReg} {i i' : BitVec 12} :
    pack o a b c i = pack o a' b' c' i' ↔ a = a' ∧ b = b' ∧ c = c' ∧ i = i' :=
  ⟨fun h => (pack_inj h).2, by rintro ⟨rfl, rfl, rfl, rfl⟩; rfl⟩

/-- A word fits a format exactly when clearing the fields the format fixes leaves it as it is. -/
theorem fits_iff_clear_eq (f : Format) (w : Word) : f.fits (opc w) w = true ↔ f.clear w = w := by
  obtain ⟨o, a, b, c, imm, rfl⟩ : ∃ o a b c imm, w = pack o a b c imm :=
    ⟨_, _, _, _, _, (pack_fields w).symm⟩
  have hzero (x : VReg) : BitVec.ofFin (w := 4) x &&& BitVec.ofFin (w := 4) 0 = 0 := BitVec.and_zero
  have himm : imm &&& 0 = 0 := BitVec.and_zero
  rw [opc_pack]
  cases f
  case' A => rw [fits_pack_iff mask_A]
  case' B => rw [fits_pack_iff mask_B]
  case' C => rw [fits_pack_iff mask_C]
  case' D => rw [fits_pack_iff mask_D]
  case' E => rw [fits_pack_iff mask_E]
  case' F => rw [fits_pack_iff mask_F]
  case' G => rw [fits_pack_iff mask_G]
  case' H => rw [fits_pack_iff mask_H]
  all_goals
    simp only [Format.clear, opc_pack, fieldVd_pack, fieldVs1_pack, fieldVs2_pack, fieldImm_pack, fieldSz_pack,
      sel_ofSel, pack_eq_iff, hzero, himm, BitVec.ofFin_toFin, vreg_and_ones_eq_zero,
      imm_and_ones_eq_zero, imm_and_above_sel_eq_zero]

/-! #### The opcode map and the encoder -/

/-- The format of a command's word (R61, R64). -/
def Instr.format : Instr → Format
  | .add _ _ _ | .sub _ _ _ | .mul _ _ _ | .div _ _ _ | .mod _ _ _ => .A
  | .and _ _ _ | .or _ _ _ | .xor _ _ _ | .shl _ _ _ | .shr _ _ _ => .A
  | .inc _ _ | .dec _ _ | .not _ _ => .B
  | .cmp _ _ => .C
  | .zero _ => .D
  | .ldn _ _ | .ldnt _ _ => .E
  | .stn _ _ => .F
  | .rdl _ _ => .G
  | .wrl _ _ => .H

/-- The opcode map reads back the operands that the encoder packed. -/
theorem opcodeMap_encode (i : Instr) : opcodeMap (encode i) = some (i.format, i) := by
  cases i <;> simp [opcodeMap, encode, Instr.opcode, Instr.format]

/-- The command that the map gives a word has the word's opcode, and the format is the command's. -/
theorem opcode_format_of_opcodeMap {w : Word} {f : Format} {i : Instr} (h : opcodeMap w = some (f, i)) :
    opc w = i.opcode ∧ f = i.format := by
  unfold opcodeMap at h
  split at h
  case h_21 => cases h
  all_goals
    next hopc =>
    cases h
    exact ⟨BitVec.eq_of_toNat_eq hopc, rfl⟩

/-- The command that the map gives a word is encoded by the word with its unused fields cleared. -/
theorem encode_of_opcodeMap {w : Word} {f : Format} {i : Instr} (h : opcodeMap w = some (f, i)) :
    encode i = f.clear w := by
  have hopc := (opcode_format_of_opcodeMap h).1
  unfold opcodeMap at h
  split at h
  case h_21 => cases h
  all_goals
    cases h
    simp only [encode, Format.clear, ← hopc]

/-- A word decodes to the command its opcode names when it fits the format and the engine has the command. -/
theorem decode_eq_some_iff {c : Config} {w : Word} {i : Instr} :
    decode c w = some i ↔
      ∃ f, opcodeMap w = some (f, i) ∧ f.fits (opc w) w = true ∧ i.wellFormed c = true := by
  unfold decode
  split
  · next hmap => simp [hmap]
  · next f j hmap =>
    simp only [hmap, Option.ite_none_right_eq_some, Bool.and_eq_true, Option.some.injEq, Prod.mk.injEq]
    constructor
    · rintro ⟨⟨hfits, hwf⟩, rfl⟩
      exact ⟨f, ⟨rfl, rfl⟩, hfits, hwf⟩
    · rintro ⟨_, ⟨rfl, rfl⟩, hfits, hwf⟩
      exact ⟨⟨hfits, hwf⟩, rfl⟩

/-- Settles O2: the map reads the command back from its word, and that word has nothing to clear. -/
theorem decodeOfEncode : Obligations.DecodeOfEncode := by
  intro c i hwf
  have hmap := opcodeMap_encode i
  exact decode_eq_some_iff.2
    ⟨i.format, hmap, (fits_iff_clear_eq _ _).2 (encode_of_opcodeMap hmap).symm, hwf⟩

/-- Settles O3: a word that fits its format is its own cleared word, which encodes the command. -/
theorem encodeOfDecode : Obligations.EncodeOfDecode := by
  intro c w i hdec
  obtain ⟨f, hmap, hfits, hwf⟩ := decode_eq_some_iff.1 hdec
  exact ⟨(encode_of_opcodeMap hmap).trans ((fits_iff_clear_eq f w).1 hfits), hwf⟩

/-! #### The rows of the opcode table -/

/-- The row of a command in the opcode table (R61, R64); RDL and WRL carry a limb index. -/
def Instr.row (i : Instr) : OpcodeRow := ⟨matchWord i.opcode, i.format.mask, seesLimbs i⟩

theorem Instr.row_mem_opcodeRows (i : Instr) : i.row ∈ opcodeRows := by
  cases i
  all_goals
    simp only [Instr.row, Instr.opcode, Instr.format, seesLimbs]
    decide

/-- The table has no row but those of the 20 commands. -/
theorem exists_row_eq {row : OpcodeRow} (h : row ∈ opcodeRows) : ∃ i : Instr, i.row = row := by
  have hrows : opcodeRows =
      [Instr.add 0 0 0, .sub 0 0 0, .mul 0 0 0, .div 0 0 0, .mod 0 0 0, .inc 0 0, .dec 0 0, .cmp 0 0,
        .and 0 0 0, .or 0 0 0, .xor 0 0 0, .not 0 0, .shl 0 0 0, .shr 0 0 0,
        .zero 0, .ldn 0 .b8, .ldnt 0 .b8, .stn 0 .b8, .rdl 0 0, .wrl 0 0].map Instr.row := by decide
  rw [hrows] at h
  obtain ⟨i, -, hi⟩ := List.mem_map.1 h
  exact ⟨i, hi⟩

/-- A word with the opcode of a command is mapped to a command of the same row. -/
theorem opcodeMap_of_opc {w : Word} {i : Instr} (h : opc w = i.opcode) :
    ∃ f j, opcodeMap w = some (f, j) ∧ j.row = i.row := by
  cases i <;> simp [opcodeMap, h, Instr.opcode, Instr.row, Instr.format, seesLimbs]

/-- An engine has the command a word is mapped to when the word's limb index, if it carries one, is below L. -/
theorem wellFormed_iff_of_opcodeMap {c : Config} {w : Word} {f : Format} {i : Instr}
    (h : opcodeMap w = some (f, i)) :
    i.wellFormed c = true ↔ (i.row.indexed = true → w.toNat % 2 ^ 12 < c.L) := by
  unfold opcodeMap at h
  split at h
  case h_21 => cases h
  all_goals
    cases h
    simp [Instr.wellFormed, Instr.row, seesLimbs, val_fieldImm]

/-- The mask of every format covers the opcode. -/
theorem Format.mask_eq_pack (f : Format) : ∃ a b c imm, f.mask = pack 0xFF a b c imm := by
  cases f with
  | A => exact ⟨_, _, _, _, mask_A⟩
  | B => exact ⟨_, _, _, _, mask_B⟩
  | C => exact ⟨_, _, _, _, mask_C⟩
  | D => exact ⟨_, _, _, _, mask_D⟩
  | E => exact ⟨_, _, _, _, mask_E⟩
  | F => exact ⟨_, _, _, _, mask_F⟩
  | G => exact ⟨_, _, _, _, mask_G⟩
  | H => exact ⟨_, _, _, _, mask_H⟩

theorem opc_of_fits {f : Format} {o : Byte} {w : Word} (h : f.fits o w = true) : opc w = o := by
  obtain ⟨a, b, c, imm, hmask⟩ := f.mask_eq_pack
  have hmatch : w &&& f.mask = matchWord o := of_decide_eq_true h
  rw [hmask, ← pack_fields w, pack_and, matchWord_eq] at hmatch
  have hones : (0xFF : Byte) = BitVec.allOnes 8 := rfl
  rw [← (pack_inj hmatch).1, hones, BitVec.and_allOnes]

/-- Settles O4: the row a word fits is the row of the command that its opcode names. -/
theorem decodesExactlyTheTable : Obligations.DecodesExactlyTheTable := by
  intro c w
  constructor
  · rintro ⟨i, hdec⟩
    obtain ⟨f, hmap, hfits, hwf⟩ := decode_eq_some_iff.1 hdec
    obtain ⟨hopc, rfl⟩ := opcode_format_of_opcodeMap hmap
    refine ⟨i.row, i.row_mem_opcodeRows, ?_, (wellFormed_iff_of_opcodeMap hmap).1 hwf⟩
    rw [hopc] at hfits
    exact of_decide_eq_true hfits
  · rintro ⟨row, hrow, hmatch, hidx⟩
    obtain ⟨i, rfl⟩ := exists_row_eq hrow
    have hfits : i.format.fits i.opcode w = true := decide_eq_true hmatch
    obtain ⟨f, j, hmap, hji⟩ := opcodeMap_of_opc (opc_of_fits hfits)
    obtain ⟨hopc, rfl⟩ := opcode_format_of_opcodeMap hmap
    rw [← hji] at hmatch hidx
    refine ⟨j, decode_eq_some_iff.2 ⟨_, hmap, ?_, (wellFormed_iff_of_opcodeMap hmap).2 hidx⟩⟩
    rw [hopc]
    exact decide_eq_true hmatch

end Sys2Proof

/-! ### The answer to a command (30_encoding.md R66, R71) -/

namespace Sys2Proof

theorem Config.W_le (c : Config) : c.W ≤ 64 := by
  unfold Config.W; cases c.limb <;> decide

theorem opc_of_decode {c : Config} {w : Word} {i : Instr} (h : decode c w = some i) : opc w = i.opcode := by
  obtain ⟨f, hmap, -, -⟩ := decode_eq_some_iff.1 h
  exact (opcode_format_of_opcodeMap hmap).1

end Sys2Proof

namespace Sys2Proof.Machine

theorem step_of_decode_eq_none {s : State} {c : Command} {rest : List Command} (hready : Ready s c rest)
    (hdec : decode s.cfg c.word = none) : step s = .next ((s.accept c rest).raise .illegal (opc c.word)) := by
  simp only [step_ready hready, runCommand, hdec]

theorem step_of_decode_eq_some {s : State} {c : Command} {rest : List Command} {i : Instr}
    (hready : Ready s c rest) (hdec : decode s.cfg c.word = some i) : step s = exec i (s.accept c rest) :=
  stepRunsDecodedCommand s c rest i hready hdec

/-- The opcodes that the table leaves out (R66). -/
theorem opcodeMap_eq_none {w : Word}
    (h : (opc w).toNat = 0x00 ∨ (0x09 ≤ (opc w).toNat ∧ (opc w).toNat ≤ 0x0F) ∨
      (0x16 ≤ (opc w).toNat ∧ (opc w).toNat ≤ 0x1F) ∨ 0x26 ≤ (opc w).toNat) : opcodeMap w = none := by
  unfold opcodeMap
  split
  case h_21 => rfl
  all_goals omega

theorem decode_eq_none_of_opcodeMap {c : Config} {w : Word} (h : opcodeMap w = none) : decode c w = none := by
  simp only [decode, h]

/-- Settles O6: an opcode outside the 20 is mapped to no command, whatever the other fields hold. -/
theorem unassignedOpcodeFails : Obligations.UnassignedOpcodeFails := by
  intro s c rest hready hop
  simp only [← toNat_opc] at hop
  have hdec : decode s.cfg c.word = none := decode_eq_none_of_opcodeMap (opcodeMap_eq_none hop)
  exact ⟨_, step_of_decode_eq_none hready hdec, State.raise_failed _ _ _⟩

/-! #### The data results -/

theorem toNat_zext64 {x : Nat} (hx : x < 2 ^ 64) : (zext64 x).toNat = x := by
  rw [zext64, BitVec.toNat_ofNat, Nat.mod_eq_of_lt hx]

theorem nativeWidth_eq (sz : NativeSize) : nativeWidth sz = 8 * 2 ^ sz.sel.toNat := by cases sz <;> rfl

theorem nativeWidth_le (sz : NativeSize) : nativeWidth sz ≤ 64 := by cases sz <;> decide

/-- A number of at most 64 bits is returned whole. -/
theorem toNat_zext64_mod {x w : Nat} (hw : w ≤ 64) : (zext64 (x % 2 ^ w)).toNat = x % 2 ^ w :=
  toNat_zext64 ((Nat.mod_lt _ (Nat.two_pow_pos w)).trans_le (Nat.pow_le_pow_right Nat.two_pos hw))

/-- The number CMP returns (R155). -/
theorem toNat_zext64_cmpCode (a b : Nat) :
    (zext64 (cmpCode (threeWay a b))).toNat = if a = b then 0 else if a < b then 1 else 2 := by
  rw [threeWay]
  split
  · rfl
  · split <;> rfl

/-- The response of a command that returns data. -/
theorem response_eq_of_respond {s t : State} {op : Byte} {d : Data} {r : Response}
    (hnext : Host.Outcome.next (φ := Fault) (ρ := Refusal) (s.respond op d) = .next t)
    (hresp : t.responses = s.responses ++ [r]) : r = ⟨.ok, op, d⟩ := by
  obtain rfl := Host.Outcome.next.inj hnext
  simpa [State.respond_eq] using hresp.symm

section
variable {s t : State} {r : Response}

theorem stn_response {vs1 : VReg} {sz : NativeSize} (hexec : exec (.stn vs1 sz) s = .next t)
    (hresp : t.responses = s.responses ++ [r]) :
    r.err = .ok ∧ r.dout.toNat = s.v vs1 % 2 ^ (8 * 2 ^ sz.sel.toNat) := by
  rw [response_eq_of_respond hexec hresp, ← nativeWidth_eq]
  exact ⟨rfl, toNat_zext64_mod (nativeWidth_le sz)⟩

theorem rdl_response {vs1 : VReg} {idx : Fin 4096} (hidx : idx.val < s.cfg.L)
    (hexec : exec (.rdl vs1 idx) s = .next t) (hresp : t.responses = s.responses ++ [r]) :
    r.err = .ok ∧ r.dout.toNat = s.v vs1 / 2 ^ (s.cfg.W * idx) % 2 ^ s.cfg.W := by
  simp only [exec, execRdl, if_neg (Nat.not_le.2 hidx)] at hexec
  rw [response_eq_of_respond hexec hresp]
  exact ⟨rfl, toNat_zext64_mod s.cfg.W_le⟩

theorem cmp_response {vs1 vs2 : VReg} (hexec : exec (.cmp vs1 vs2) s = .next t)
    (hresp : t.responses = s.responses ++ [r]) :
    r.err = .ok ∧ r.dout.toNat = if s.v vs1 = s.v vs2 then 0 else if s.v vs1 < s.v vs2 then 1 else 2 := by
  rw [response_eq_of_respond hexec hresp]
  exact ⟨rfl, toNat_zext64_cmpCode _ _⟩

end

/-- However a command ends, it adds one response, with its own opcode and data only where it returns data. -/
theorem Ends.response {i : Instr} {s t : State} (h : Ends i s t) :
    ∃ r, t.responses = s.responses ++ [r] ∧ t.pending = s.pending ∧ r.op = i.opcode ∧
      (r.dout ≠ 0 → r.err = .ok ∧ returnsData i = true) := by
  cases h with
  | completes vd x hw => exact ⟨_, rfl, rfl, rfl, fun hd => absurd rfl hd⟩
  | returns d hret => exact ⟨_, rfl, rfl, rfl, fun _ => ⟨rfl, hret⟩⟩
  | fails e he hi => exact ⟨_, rfl, rfl, rfl, fun hd => absurd rfl hd⟩

/-- Settles O8: a word that spells no command is answered ILLEGAL; a command is answered as it ends, and
STN, RDL and CMP with their data. -/
theorem everyCommandIsAnsweredOnce : Obligations.EveryCommandIsAnsweredOnce := by
  refine ⟨⟨rfl, rfl, rfl, rfl⟩, fun s c rest hready => ?_⟩
  cases hdec : decode s.cfg c.word with
  | none =>
    exact ⟨_, ⟨.illegal, opc c.word, 0⟩, step_of_decode_eq_none hready hdec, rfl, rfl, rfl,
      fun hd => absurd rfl hd, nofun, nofun, nofun⟩
  | some i =>
    obtain ⟨t, hexec, hends⟩ := exec_ends i (s.accept c rest)
    obtain ⟨r, hresp, hpending, hop, hdata⟩ := hends.response
    refine ⟨t, r, (step_of_decode_eq_some hready hdec).trans hexec, hresp, hpending,
      hop.trans (opc_of_decode hdec).symm, fun hd => ⟨(hdata hd).1, i, rfl, (hdata hd).2⟩, ?_, ?_, ?_⟩
    · rintro vs1 sz ⟨⟩
      exact stn_response (s := s.accept c rest) hexec hresp
    · rintro vs1 idx ⟨⟩
      exact rdl_response (s := s.accept c rest) (of_decide_eq_true (encodeOfDecode _ _ _ hdec).2) hexec hresp
    · rintro vs1 vs2 ⟨⟩
      exact cmp_response (s := s.accept c rest) hexec hresp

end Sys2Proof.Machine

/-! ### Sample words (96_test_programs.md section 8) -/

namespace Sys2Proof

/-- Settles O1: seven of the words are the encodings of their commands (O2); the other three fit no
row of the table or have a limb index of L. -/
theorem sampleWordsDecode : Obligations.SampleWordsDecode :=
  ⟨decodeOfEncode _ (.add 2 0 1) rfl, decodeOfEncode _ (.div 13 11 12) rfl, decodeOfEncode _ (.inc 4 4) rfl,
    decodeOfEncode _ (.cmp 1 2) rfl, decodeOfEncode _ (.shl 2 0 1) rfl, decodeOfEncode _ (.ldn 8 .b16) rfl,
    decodeOfEncode _ (.rdl 1 7) (by decide), by decide, by decide, by decide⟩

end Sys2Proof

/-! ### The pseudo-instructions (30_encoding.md R70, 44_compare.md R157) -/

namespace Sys2Proof.Machine

theorem threeWay_eq_compare (a b : Nat) : threeWay a b = compare a b := by
  rw [threeWay, Nat.compare_eq_ite_lt]
  rcases Nat.lt_trichotomy a b with h | rfl | h
  · simp [h, h.ne]
  · simp
  · simp [h, h.ne', h.not_gt]

/-- The comparison results on which an operator holds (R157). -/
def Relation.admits (o : Ordering) : Relation → Bool
  | .eq => o = .eq
  | .ne => o ≠ .eq
  | .lt => o = .lt
  | .le => o ≠ .gt
  | .gt => o = .gt
  | .ge => o ≠ .lt

theorem onCmp_zext64_cmpCode (rel : Relation) (o : Ordering) :
    rel.onCmp (zext64 (cmpCode o)) = rel.admits o := by
  cases rel <;> cases o <;> rfl

/-- The predicate that the host reads from the data of a CMP is the relation of the two values (R157). -/
theorem onCmp_iff_relationHolds (rel : Relation) (a b : Nat) :
    rel.onCmp (zext64 (cmpCode (threeWay a b))) = true ↔ RelationHolds rel a b := by
  rw [onCmp_zext64_cmpCode, threeWay_eq_compare]
  cases rel with
  | eq => exact decide_eq_true_iff.trans compare_eq_iff_eq
  | ne => exact decide_eq_true_iff.trans compare_eq_iff_eq.not
  | lt => exact decide_eq_true_iff.trans compare_lt_iff_lt
  | le => exact decide_eq_true_iff.trans compare_le_iff_le
  | gt => exact decide_eq_true_iff.trans compare_gt_iff_gt
  | ge => exact decide_eq_true_iff.trans compare_ge_iff_ge

theorem coe_subWrap (N a b : Nat) : (subWrap N a b : Int) = ((a : Int) - b) % 2 ^ N := by
  have hpos : ((2 ^ N : Nat) : Int) ≠ 0 := Int.natCast_ne_zero.2 (Nat.two_pow_pos N).ne'
  rw [subWrap, Int.toNat_of_nonneg (Int.emod_nonneg _ hpos)]
  norm_cast

/-- Decrementing is adding `MAXVAL`. -/
theorem subWrap_one (N a : Nat) : subWrap N a 1 = (a + (2 ^ N - 1)) % 2 ^ N := by
  have hcoe := coe_subWrap N a 1
  zify [Nat.one_le_two_pow]
  rw [hcoe, ← Int.add_emod_right]
  congr 1
  push_cast
  ring

theorem State.complete_wrote_of_eq (s : State) (vd : VReg) {x y : Nat} (h : x = y) (op : Byte) :
    Wrote s vd y op (s.complete vd x op) := h ▸ s.complete_wrote vd x op

theorem exec_div_wrote_or_failed (s : State) (vd vs1 vs2 : VReg) : ∃ t, exec (.div vd vs1 vs2) s = .next t ∧
    if s.v vs2 = 0 then Failed s .divzero 0x04 t else Wrote s vd (s.v vs1 / s.v vs2) 0x04 t := by
  simp only [exec, execDiv]
  split
  · exact ⟨_, rfl, s.raise_failed _ _⟩
  · exact ⟨_, rfl, s.complete_wrote _ _ _⟩

theorem exec_mod_wrote_or_failed (s : State) (vd vs1 vs2 : VReg) : ∃ t, exec (.mod vd vs1 vs2) s = .next t ∧
    if s.v vs2 = 0 then Failed s .divzero 0x05 t else Wrote s vd (s.v vs1 % s.v vs2) 0x05 t := by
  simp only [exec, execMod]
  split
  · exact ⟨_, rfl, s.raise_failed _ _⟩
  · exact ⟨_, rfl, s.complete_wrote _ _ _⟩

/-- Settles O60: each expansion is one command, which ends with the value of its operator. -/
theorem pseudoInstructionsExpand : Obligations.PseudoInstructionsExpand := by
  intro s va vb
  exact ⟨⟨_, rfl, s.complete_wrote_of_eq va (Nat.or_self _) 0x11⟩,
    ⟨⟨_, rfl, s.complete_wrote va (addWrap s.cfg.N (s.v va) (s.v vb)) 0x01⟩,
      ⟨_, subWrap s.cfg.N (s.v va) (s.v vb), rfl, s.complete_wrote va _ 0x02, coe_subWrap _ _ _⟩,
      ⟨_, rfl, s.complete_wrote va (mulWrap s.cfg.N (s.v va) (s.v vb)) 0x03⟩,
      exec_div_wrote_or_failed s va va vb, exec_mod_wrote_or_failed s va va vb,
      ⟨_, rfl, s.complete_wrote va (s.v va &&& s.v vb) 0x10⟩,
      ⟨_, rfl, s.complete_wrote va (s.v va ||| s.v vb) 0x11⟩,
      ⟨_, rfl, s.complete_wrote va (s.v va ^^^ s.v vb) 0x12⟩,
      ⟨_, rfl, s.complete_wrote va (shlVal s.cfg.N (s.v va) (s.v vb)) 0x14⟩,
      ⟨_, rfl, s.complete_wrote va (shrVal s.cfg.N (s.v va) (s.v vb)) 0x15⟩⟩,
    ⟨_, rfl, s.complete_wrote va (addWrap s.cfg.N (s.v va) 1) 0x06⟩,
    ⟨_, rfl, s.complete_wrote_of_eq va (subWrap_one _ _) 0x07⟩,
    fun rel => ⟨_, _, rfl, s.respond_answered _ 0x08, onCmp_iff_relationHolds rel _ _⟩⟩

end Sys2Proof.Machine

/-! ### Construction, native conversion and limb access (40_construct_convert.md R90 to R96) -/

namespace Sys2Proof

/-! #### The words of the commands in hexadecimal (30_encoding.md R62) -/

theorem hexWord_eq_pack (o : Byte) (vd vs1 vs2 : VReg) (imm : BitVec 12) :
    hexWord o.toNat vd vs1 vs2 imm.toNat = pack o vd vs1 vs2 imm := by
  apply BitVec.eq_of_toNat_eq
  rw [hexWord, BitVec.toNat_ofNat, toNat_pack]
  have := o.isLt
  omega

/-- A size selector is an immediate of the same value. -/
theorem hexWord_sel_eq_pack (o : Byte) (vd vs1 vs2 : VReg) (sz : NativeSize) :
    hexWord o.toNat vd vs1 vs2 sz.sel.toNat = pack o vd vs1 vs2 (0#10 ++ sz.sel) := by
  have himm : (0#10 ++ sz.sel).toNat = sz.sel.toNat := by cases sz <;> rfl
  rw [← himm]
  exact hexWord_eq_pack o vd vs1 vs2 _

@[simp] theorem opc_encode (i : Instr) : opc (encode i) = i.opcode :=
  (opcode_format_of_opcodeMap (opcodeMap_encode i)).1

section
variable {c : Config} {w : Word} {i : Instr} (hw : w = encode i)
include hw

theorem decode_of_eq_encode (hwf : i.wellFormed c = true) : decode c w = some i :=
  hw ▸ decodeOfEncode c i hwf

/-- An engine does not decode the word of a command that it does not have (R67). -/
theorem decode_eq_none_of_eq_encode (hwf : i.wellFormed c = false) : decode c w = none := by
  simp [hw, decode, opcodeMap_encode, hwf]

end

end Sys2Proof

namespace Sys2Proof.Machine

/-- The word of a command that the engine does not have is no command, and the step on it fails. -/
theorem illegal_of_eq_encode {s : State} {w : Word} {i : Instr} (hw : w = encode i)
    (hwf : i.wellFormed s.cfg = false) :
    decode s.cfg w = none ∧ ∀ (c : Command) (rest : List Command), Ready s c rest → c.word = w →
      ∃ t, step s = .next t ∧ Failed (presented s c rest) .illegal i.opcode t := by
  have hdec : decode s.cfg w = none := decode_eq_none_of_eq_encode hw hwf
  refine ⟨hdec, fun c rest hready hword => ⟨_, step_of_decode_eq_none hready (hword ▸ hdec), ?_⟩⟩
  rw [hword, hw, opc_encode]
  exact State.raise_failed _ _ _

/-! #### What each command does, case by case -/

theorem State.nativeValue_eq (s : State) (sz : NativeSize) :
    s.nativeValue sz = s.din.toNat % 2 ^ (8 * 2 ^ sz.sel.toNat) := by
  rw [State.nativeValue, nativeWidth_eq]

section
variable (s : State) (r : VReg) {sz : NativeSize} {idx : Fin 4096}

theorem exec_ldn_of_lt (h : s.nativeValue sz < 2 ^ s.cfg.N) :
    exec (.ldn r sz) s = .next (s.complete r (s.nativeValue sz) 0x21) :=
  if_neg (Nat.not_le.2 h)

theorem exec_ldn_of_le (h : 2 ^ s.cfg.N ≤ s.nativeValue sz) :
    exec (.ldn r sz) s = .next (s.raise .trunc 0x21) :=
  if_pos h

theorem exec_rdl_of_lt (h : idx.val < s.cfg.L) :
    exec (.rdl r idx) s = .next (s.respond 0x24 (zext64 (s.memRead r idx))) :=
  if_neg (Nat.not_le.2 h)

theorem exec_wrl_of_fits (h : idx.val < s.cfg.L)
    (hfits : ¬ (idx.val = s.cfg.L - 1 ∧ s.cfg.topMask < s.limbValue)) :
    exec (.wrl r idx) s = .next ((s.memWrite r idx s.limbValue).respond 0x25 0) :=
  (if_neg (Nat.not_le.2 h)).trans (if_neg hfits)

theorem exec_wrl_of_topMask_lt (h : idx.val < s.cfg.L) (htop : idx.val = s.cfg.L - 1)
    (hwide : s.cfg.topMask < s.limbValue) : exec (.wrl r idx) s = .next (s.raise .trunc 0x25) :=
  (if_neg (Nat.not_le.2 h)).trans (if_pos ⟨htop, hwide⟩)

end

/-! #### The obligations -/

/-- Settles O30: a limb index below L is one of the engine's, and a completing WRL is a limb write, which
the laws of the limb storage describe; an index of L or more makes the command one the engine lacks. -/
theorem wrlReplacesOneLimb : Obligations.WrlReplacesOneLimb := by
  intro s vd idx
  have hword : hexWord 0x25 vd 0 0 idx = encode (.wrl vd idx) :=
    hexWord_eq_pack 0x25 vd 0 0 (BitVec.ofFin (w := 12) idx)
  have hdec (hidx : idx.val < s.cfg.L) : decode s.cfg (hexWord 0x25 vd 0 0 idx) = some (.wrl vd idx) :=
    decode_of_eq_encode hword (decide_eq_true hidx)
  refine ⟨fun hidx hfits => ⟨hdec hidx, _, exec_wrl_of_fits s vd hidx hfits, ?_, ?_, fun q j hne => ?_⟩,
    fun htop hidx hwide => ⟨hdec hidx, _, exec_wrl_of_topMask_lt s vd hidx htop hwide, s.raise_failed _ _⟩,
    fun hidx => illegal_of_eq_encode hword (decide_eq_false (Nat.not_lt.2 hidx))⟩
  · exact s.memWrite_wrote vd idx s.limbValue 0x25
  · exact s.memRead_memWrite_same vd idx s.limbValue_lt
  · exact s.memRead_memWrite_ne q vd idx j s.limbValue_lt hne

/-- Settles O25: the command completes with 0, whatever the state. -/
theorem zeroClearsItsRegister : Obligations.ZeroClearsItsRegister := by
  intro s vd
  have hword : hexWord 0x20 vd 0 0 0 = encode (.zero vd) := hexWord_eq_pack 0x20 vd 0 0 0
  exact ⟨decode_of_eq_encode hword rfl, _, rfl, s.complete_wrote vd 0 0x20⟩

/-- Settles O26: both cases of the command's range test, on its native value. -/
theorem ldnLoadsExactlyOrFails : Obligations.LdnLoadsExactlyOrFails := by
  intro s vd sz
  have hword : hexWord 0x21 vd 0 0 sz.sel.toNat = encode (.ldn vd sz) := hexWord_sel_eq_pack 0x21 vd 0 0 sz
  rw [← s.nativeValue_eq]
  exact ⟨decode_of_eq_encode hword rfl,
    fun hfits => ⟨_, exec_ldn_of_lt s vd hfits, s.complete_wrote vd _ 0x21⟩,
    fun hwide => ⟨_, exec_ldn_of_le s vd hwide, s.raise_failed .trunc 0x21⟩⟩

/-- Settles O27: the command completes with its native value, reduced. -/
theorem ldntLoadsModulo : Obligations.LdntLoadsModulo := by
  intro s vd sz
  have hword : hexWord 0x22 vd 0 0 sz.sel.toNat = encode (.ldnt vd sz) := hexWord_sel_eq_pack 0x22 vd 0 0 sz
  rw [← s.nativeValue_eq]
  exact ⟨decode_of_eq_encode hword rfl, _, rfl, s.complete_wrote vd _ 0x22⟩

/-- Settles O28: the data are the low bits whole, since no native width exceeds the 64 bits of data-out. -/
theorem stnReturnsLowBits : Obligations.StnReturnsLowBits := by
  intro s vs1 sz
  have hword : hexWord 0x23 0 vs1 0 sz.sel.toNat = encode (.stn vs1 sz) := hexWord_sel_eq_pack 0x23 0 vs1 0 sz
  rw [← nativeWidth_eq]
  exact ⟨decode_of_eq_encode hword rfl, _, _, rfl, s.respond_answered _ 0x23,
    toNat_zext64_mod (nativeWidth_le sz)⟩

/-- Settles O29: the data are the limb whole, since no limb width exceeds the 64 bits of data-out; an index
of L or more makes the command one the engine lacks. -/
theorem rdlReturnsOneLimb : Obligations.RdlReturnsOneLimb := by
  intro s vs1 idx
  have hword : hexWord 0x24 0 vs1 0 idx = encode (.rdl vs1 idx) :=
    hexWord_eq_pack 0x24 0 vs1 0 (BitVec.ofFin (w := 12) idx)
  exact ⟨fun hidx => ⟨decode_of_eq_encode hword (decide_eq_true hidx), _, _, exec_rdl_of_lt s vs1 hidx,
      s.respond_answered _ 0x24, toNat_zext64_mod s.cfg.W_le⟩,
    fun hidx => illegal_of_eq_encode hword (decide_eq_false (Nat.not_lt.2 hidx))⟩

end Sys2Proof.Machine

/-! ### Addition and subtraction (41_addsub.md R111, R113, R115, R116) -/

namespace Sys2Proof.Machine

/-! #### The wrapping results, case by case -/

section
variable {N a b : Nat}

theorem subWrap_of_le (hba : b ≤ a) (ha : a < 2 ^ N) : subWrap N a b = a - b := by
  rw [subWrap, ← Int.natCast_sub hba, ← Int.natCast_emod, Int.toNat_natCast, Nat.mod_eq_of_lt (by omega)]

/-- A negative difference comes into range by adding `2^N` once. -/
theorem subWrap_of_lt (hab : a < b) (hb : b ≤ 2 ^ N) : subWrap N a b = 2 ^ N - (b - a) := by
  have hwrap : (a : Int) - b + (2 ^ N : Nat) = (2 ^ N - (b - a) : Nat) := by omega
  rw [subWrap, ← Int.add_emod_right, hwrap, ← Int.natCast_emod, Int.toNat_natCast, Nat.mod_eq_of_lt (by omega)]

theorem subWrap_eq_ite (ha : a < 2 ^ N) (hb : b ≤ 2 ^ N) :
    subWrap N a b = if b ≤ a then a - b else 2 ^ N - (b - a) := by
  split
  next hba => exact subWrap_of_le hba ha
  next hba => exact subWrap_of_lt (Nat.not_le.1 hba) hb

theorem subWrap_one_eq_ite (ha : a < 2 ^ N) : subWrap N a 1 = if a = 0 then 2 ^ N - 1 else a - 1 := by
  split
  next hzero => exact hzero ▸ subWrap_of_lt Nat.one_pos Nat.one_le_two_pow
  next hpos => exact subWrap_of_le (Nat.one_le_iff_ne_zero.2 hpos) ha

theorem addWrap_one_eq_ite (ha : a < 2 ^ N) : addWrap N a 1 = if a = 2 ^ N - 1 then 0 else a + 1 := by
  rw [addWrap]
  split
  next hmax => rw [hmax, Nat.sub_add_cancel Nat.one_le_two_pow, Nat.mod_self]
  next hmax => exact Nat.mod_eq_of_lt (by omega)

end

/-! #### The obligations -/

/-- Settles O36: the command completes with the wrapped sum, whatever the state. -/
theorem addWrapsModulo : Obligations.AddWrapsModulo := by
  intro s vd vs1 vs2
  have hword : hexWord 0x01 vd vs1 vs2 0 = encode (.add vd vs1 vs2) := hexWord_eq_pack 0x01 vd vs1 vs2 0
  exact ⟨decode_of_eq_encode hword rfl, _, rfl, s.complete_wrote vd (addWrap s.cfg.N (s.v vs1) (s.v vs2)) 0x01⟩

/-- Settles O37: of two registers in range, the difference wraps at most once. -/
theorem subWrapsModulo : Obligations.SubWrapsModulo := by
  intro s vd vs1 vs2 hinv
  have hword : hexWord 0x02 vd vs1 vs2 0 = encode (.sub vd vs1 vs2) := hexWord_eq_pack 0x02 vd vs1 vs2 0
  have hval := subWrap_eq_ite (hinv vs1) (hinv vs2).le
  exact ⟨decode_of_eq_encode hword rfl, _, rfl, s.complete_wrote_of_eq vd hval 0x02⟩

/-- Settles O38: of a register in range, only the maximum wraps on adding one, and only 0 on subtracting one. -/
theorem incDecWrapModulo : Obligations.IncDecWrapModulo := by
  intro s vd vs1 hinv
  have hinc : hexWord 0x06 vd vs1 0 0 = encode (.inc vd vs1) := hexWord_eq_pack 0x06 vd vs1 0 0
  have hdec : hexWord 0x07 vd vs1 0 0 = encode (.dec vd vs1) := hexWord_eq_pack 0x07 vd vs1 0 0
  exact ⟨⟨decode_of_eq_encode hinc rfl, _, rfl, s.complete_wrote_of_eq vd (addWrap_one_eq_ite (hinv vs1)) 0x06⟩,
    ⟨decode_of_eq_encode hdec rfl, _, rfl, s.complete_wrote_of_eq vd (subWrap_one_eq_ite (hinv vs1)) 0x07⟩⟩

end Sys2Proof.Machine

/-! ### Multiplication (42_mul.md R130) -/

namespace Sys2Proof.Machine

/-- Settles O42: the command completes with the wrapped product, whatever the state. -/
theorem mulWrapsModulo : Obligations.MulWrapsModulo := by
  intro s vd vs1 vs2
  have hword : hexWord 0x03 vd vs1 vs2 0 = encode (.mul vd vs1 vs2) := hexWord_eq_pack 0x03 vd vs1 vs2 0
  exact ⟨decode_of_eq_encode hword rfl, _, rfl, s.complete_wrote vd (mulWrap s.cfg.N (s.v vs1) (s.v vs2)) 0x03⟩

end Sys2Proof.Machine

/-! ### Division (43_divmod.md R140, R143, R144) -/

namespace Sys2Proof.Machine

/-- Settles O45: the quotient that the command writes belongs to the pair that divides with remainder. -/
theorem divWritesTheQuotient : Obligations.DivWritesTheQuotient := by
  intro s vd vs1 vs2
  have hword : hexWord 0x04 vd vs1 vs2 0 = encode (.div vd vs1 vs2) := hexWord_eq_pack 0x04 vd vs1 vs2 0
  obtain ⟨t, hexec, hend⟩ := exec_div_wrote_or_failed s vd vs1 vs2
  refine ⟨decode_of_eq_encode hword rfl, fun hne => ?_, fun hzero => ?_⟩
  · rw [if_neg hne] at hend
    exact ⟨t, _, _, hexec, (Nat.div_add_mod' _ _).symm, Nat.mod_lt _ (Nat.pos_of_ne_zero hne), hend⟩
  · rw [if_pos hzero] at hend
    exact ⟨t, hexec, hend⟩

/-- Settles O46: the remainder that the command writes belongs to the same pair. -/
theorem modWritesTheRemainder : Obligations.ModWritesTheRemainder := by
  intro s vd vs1 vs2
  have hword : hexWord 0x05 vd vs1 vs2 0 = encode (.mod vd vs1 vs2) := hexWord_eq_pack 0x05 vd vs1 vs2 0
  obtain ⟨t, hexec, hend⟩ := exec_mod_wrote_or_failed s vd vs1 vs2
  refine ⟨decode_of_eq_encode hword rfl, fun hne => ?_, fun hzero => ?_⟩
  · rw [if_neg hne] at hend
    exact ⟨t, _, _, hexec, (Nat.div_add_mod' _ _).symm, Nat.mod_lt _ (Nat.pos_of_ne_zero hne), hend⟩
  · rw [if_pos hzero] at hend
    exact ⟨t, hexec, hend⟩

end Sys2Proof.Machine

/-! ### Comparison (44_compare.md R155, R157) -/

namespace Sys2Proof.Machine

/-- Settles O51: each operator on the data of CMP is the relation of the two values that it stands for. -/
theorem relationalOperatorsFollowCmp : Obligations.RelationalOperatorsFollowCmp := by
  intro s vs1 vs2
  have hrel (rel : Relation) := onCmp_iff_relationHolds rel (s.v vs1) (s.v vs2)
  exact ⟨_, _, rfl, s.respond_answered _ 0x08, hrel .eq, hrel .ne, hrel .lt, hrel .le, hrel .gt, hrel .ge⟩

/-- Settles O50: the command answers with the code of the comparison, whatever the state. -/
theorem cmpReturnsThreeWayResult : Obligations.CmpReturnsThreeWayResult := by
  intro s vs1 vs2
  have hword : hexWord 0x08 0 vs1 vs2 0 = encode (.cmp vs1 vs2) := hexWord_eq_pack 0x08 0 vs1 vs2 0
  exact ⟨decode_of_eq_encode hword rfl, _, _, rfl, s.respond_answered _ 0x08, toNat_zext64_cmpCode _ _⟩

end Sys2Proof.Machine

/-! ### Bitwise operators and shifts (45_bitwise.md R170 to R177) -/

namespace Sys2Proof.Machine

/-! #### The results bit by bit -/

section
variable {N a : Nat}

theorem testBit_notVal (ha : a < 2 ^ N) (i : Nat) :
    (notVal N a).testBit i = (decide (i < N) && !a.testBit i) := by
  rw [notVal, Nat.sub_sub, Nat.add_comm, Nat.testBit_two_pow_sub_succ ha]

/-- An amount of N or more leaves no position below N to shift a bit to. -/
theorem testBit_shlVal (k i : Nat) :
    (shlVal N a k).testBit i = (decide (i < N) && decide (k ≤ i) && a.testBit (i - k)) := by
  rw [shlVal]
  split
  next hk =>
    have hnone : ¬ (i < N ∧ k ≤ i) := by omega
    rw [Nat.zero_testBit, ← Bool.decide_and, decide_eq_false hnone, Bool.false_and]
  next => rw [Nat.testBit_mod_two_pow, Nat.testBit_mul_two_pow, Bool.and_assoc]

/-- A value in range has no bit at or above position N to shift down. -/
theorem testBit_shrVal (ha : a < 2 ^ N) (k i : Nat) : (shrVal N a k).testBit i = a.testBit (i + k) := by
  rw [shrVal]
  split
  next hk =>
    have hle : 2 ^ N ≤ 2 ^ (i + k) := Nat.pow_le_pow_right Nat.two_pos (by omega)
    rw [Nat.zero_testBit, Nat.testBit_lt_two_pow (ha.trans_le hle)]
  next => exact Nat.testBit_div_two_pow a i

end

/-! #### The results limb by limb -/

/-- An operator that commutes with taking the high bits and with taking the low bits of its operands works
limb by limb. -/
theorem limbs_zipWith (c : Config) {f : Nat → Nat → Nat} (a b : Nat)
    (hdiv : ∀ {x y n}, f x y / 2 ^ n = f (x / 2 ^ n) (y / 2 ^ n))
    (hmod : ∀ {x y n}, f x y % 2 ^ n = f (x % 2 ^ n) (y % 2 ^ n)) :
    limbs c (f a b) = List.zipWith f (limbs c a) (limbs c b) := by
  simp only [limbs, List.zipWith_map, List.zipWith_self, hdiv, hmod]

section
variable {c : Config} (hN : 0 < c.N)
include hN

/-- Every bit position of a limb below the top one is a position below N. -/
theorem lowerLimb_bit_lt {i j : Nat} (hi : i < c.L - 1) (hj : j < c.W) : c.W * i + j < c.N := by
  have hnext : c.W * (i + 1) ≤ c.W * (c.L - 1) := Nat.mul_le_mul_left _ hi
  have hlow := Config.pred_L_mul_W_lt hN
  rw [Nat.mul_succ] at hnext
  rw [Nat.mul_comm] at hlow
  omega

/-- The positions below N of the top limb are its lowest T. -/
theorem topLimb_bit_lt_iff (j : Nat) : c.W * (c.L - 1) + j < c.N ↔ j < c.T := by
  have hsplit := Config.N_eq_add_T hN
  rw [Nat.mul_comm] at hsplit
  omega

/-- The complement within N bits has the complemented limbs, the top one masked, since the positions that
the mask clears are those at or above N. -/
theorem limbs_notVal {a : Nat} (ha : a < 2 ^ c.N) : limbs c (notVal c.N a) = notLimbs c (limbs c a) := by
  refine List.ext_getElem (by simp [notLimbs, maskTop, limbs]) fun i hi _ => ?_
  have hiL : i < c.L := by simpa [limbs] using hi
  have hcompl (j : Nat) : (c.limbMax - a / 2 ^ (c.W * i) % 2 ^ c.W).testBit j =
      (decide (j < c.W) && !a.testBit (c.W * i + j)) := by
    change (notVal c.W _).testBit j = _
    rw [testBit_notVal (Nat.mod_lt _ (Nat.two_pow_pos _)), slice_testBit]
    by_cases hj : j < c.W <;> simp [hj]
  apply Nat.eq_of_testBit_eq
  intro j
  simp only [notLimbs, maskTop, limbs, List.getElem_modify, List.getElem_map, List.getElem_range]
  rw [slice_testBit, testBit_notVal ha]
  split
  next htop =>
    have hpos : c.W * i + j < c.N ↔ j < c.T := htop ▸ topLimb_bit_lt_iff hN j
    rw [Nat.testBit_and, hcompl, Config.topMask, Nat.testBit_two_pow_sub_one, decide_eq_decide.2 hpos]
    rw [Bool.and_assoc, Bool.and_comm (decide (j < c.T))]
  next hlow =>
    rw [hcompl]
    by_cases hj : j < c.W
    · have hpos : c.W * i + j < c.N := lowerLimb_bit_lt hN (by omega) hj
      simp [hpos]
    · simp [hj]

end

/-! #### The obligations -/

/-- Settles O54: each operator is one on the bits of its operands, so it commutes with taking a limb. -/
theorem andOrXorWorkBitByBit : Obligations.AndOrXorWorkBitByBit := by
  intro s vd vs1 vs2
  have hand : hexWord 0x10 vd vs1 vs2 0 = encode (.and vd vs1 vs2) := hexWord_eq_pack 0x10 vd vs1 vs2 0
  have hor : hexWord 0x11 vd vs1 vs2 0 = encode (.or vd vs1 vs2) := hexWord_eq_pack 0x11 vd vs1 vs2 0
  have hxor : hexWord 0x12 vd vs1 vs2 0 = encode (.xor vd vs1 vs2) := hexWord_eq_pack 0x12 vd vs1 vs2 0
  exact ⟨⟨decode_of_eq_encode hand rfl, _, _, rfl, s.complete_wrote vd _ 0x10, Nat.testBit_and _ _,
      limbs_zipWith s.cfg _ _ Nat.and_div_two_pow Nat.and_mod_two_pow⟩,
    ⟨decode_of_eq_encode hor rfl, _, _, rfl, s.complete_wrote vd _ 0x11, Nat.testBit_or _ _,
      limbs_zipWith s.cfg _ _ Nat.or_div_two_pow Nat.or_mod_two_pow⟩,
    ⟨decode_of_eq_encode hxor rfl, _, _, rfl, s.complete_wrote vd _ 0x12, Nat.testBit_xor _ _,
      limbs_zipWith s.cfg _ _ Nat.xor_div_two_pow Nat.xor_mod_two_pow⟩⟩

/-- Settles O55: of a register in range, the difference from the maximum is the complement of the N bits. -/
theorem notComplementsWithinN : Obligations.NotComplementsWithinN := by
  intro s vd vs1 hinv hok
  have hword : hexWord 0x13 vd vs1 0 0 = encode (.not vd vs1) := hexWord_eq_pack 0x13 vd vs1 0 0
  have hwrote := s.complete_wrote vd (notVal s.cfg.N (s.v vs1)) 0x13
  refine ⟨decode_of_eq_encode hword rfl, _, rfl, hwrote, ?_⟩
  rw [hwrote.1]
  exact ⟨testBit_notVal (hinv vs1), limbs_notVal (s.cfg.ok_iff.1 hok).1 (hinv vs1)⟩

/-- Settles O56: the command completes with the shifted value, whatever the state. -/
theorem shlShiftsByTheWholeAmount : Obligations.ShlShiftsByTheWholeAmount := by
  intro s vd vs1 vs2
  have hword : hexWord 0x14 vd vs1 vs2 0 = encode (.shl vd vs1 vs2) := hexWord_eq_pack 0x14 vd vs1 vs2 0
  exact ⟨decode_of_eq_encode hword rfl, _, shlVal s.cfg.N (s.v vs1) (s.v vs2), rfl,
    s.complete_wrote vd _ 0x14, rfl, testBit_shlVal _⟩

/-- Settles O57: the command completes with the shifted value, of a register in range. -/
theorem shrShiftsByTheWholeAmount : Obligations.ShrShiftsByTheWholeAmount := by
  intro s vd vs1 vs2 hinv
  have hword : hexWord 0x15 vd vs1 vs2 0 = encode (.shr vd vs1 vs2) := hexWord_eq_pack 0x15 vd vs1 vs2 0
  exact ⟨decode_of_eq_encode hword rfl, _, shrVal s.cfg.N (s.v vs1) (s.v vs2), rfl,
    s.complete_wrote vd _ 0x15, rfl, testBit_shrVal (hinv vs1) _⟩

end Sys2Proof.Machine

/-! ### Errors (60_exceptions.md R190, R191, R195, R196) -/

namespace Sys2Proof.Machine

/-! #### The error a command is answered with -/

/-- What `err` says when the command ends from `s`: the table of R191, and the limb index of log 8. -/
def errorOf (s : State) : Instr → Err
  | .div _ _ vs2 | .mod _ _ vs2 => if s.v vs2 = 0 then .divzero else .ok
  | .ldn _ sz => if s.nativeValue sz ≥ 2 ^ s.cfg.N then .trunc else .ok
  | .rdl _ idx => if idx.val ≥ s.cfg.L then .illegal else .ok
  | .wrl _ idx =>
    if idx.val ≥ s.cfg.L then .illegal
    else if idx.val = s.cfg.L - 1 ∧ s.limbValue > s.cfg.topMask then .trunc else .ok
  | _ => .ok

theorem exec_errorOf (i : Instr) (s : State) : ∃ t r, exec i s = .next t ∧
    t.responses = s.responses ++ [r] ∧ r.op = i.opcode ∧ r.err = errorOf s i := by
  cases i with
  | div vd vs1 vs2 | mod vd vs1 vs2 =>
    simp only [exec, execDiv, execMod, errorOf]
    split <;> exact ⟨_, _, rfl, rfl, rfl, rfl⟩
  | ldn vd sz =>
    simp only [exec, execLdn, errorOf]
    split <;> exact ⟨_, _, rfl, rfl, rfl, rfl⟩
  | rdl vs1 idx =>
    simp only [exec, execRdl, errorOf]
    split <;> exact ⟨_, _, rfl, rfl, rfl, rfl⟩
  | wrl vd idx =>
    simp only [exec, execWrl, errorOf]
    split
    · exact ⟨_, _, rfl, rfl, rfl, rfl⟩
    · split <;> exact ⟨_, _, rfl, rfl, rfl, rfl⟩
  | _ => exact ⟨_, _, rfl, rfl, rfl, rfl⟩

section
variable {s : State} {i : Instr}

theorem errorOf_eq_divzero_iff : errorOf s i = .divzero ↔
    ∃ vd vs1 vs2, (i = .div vd vs1 vs2 ∨ i = .mod vd vs1 vs2) ∧ s.v vs2 = 0 := by
  cases i with
  | div vd vs1 vs2 | mod vd vs1 vs2 => simp [errorOf]
  | _ => simp [errorOf, ite_eq_iff]

/-- An engine without the limb answers ILLEGAL before it compares the value with TOPMASK (R198). -/
theorem errorOf_eq_trunc_iff (hwf : i.wellFormed s.cfg = true) : errorOf s i = .trunc ↔
    (∃ vd sz, i = .ldn vd sz ∧ 2 ^ s.cfg.N ≤ s.nativeValue sz) ∨
      ∃ vd idx, i = .wrl vd idx ∧ idx.val = s.cfg.L - 1 ∧ s.cfg.topMask < s.limbValue := by
  cases i with
  | wrl vd idx =>
    have hidx : ¬ idx.val ≥ s.cfg.L := Nat.not_le.2 (of_decide_eq_true hwf)
    simp [errorOf, hidx]
  | ldn vd sz => simp [errorOf]
  | _ => simp [errorOf, ite_eq_iff]

theorem errorOf_eq_illegal_iff : errorOf s i = .illegal ↔ i.wellFormed s.cfg = false := by
  cases i with
  | rdl vs1 idx => simp [errorOf, Instr.wellFormed]
  | _ => simp [errorOf, Instr.wellFormed, ite_eq_iff]

end

/-- Settles O19: a decoded command is answered with its own error, which an engine that has the command
raises for the causes of the table; a word that does not decode is answered ILLEGAL. -/
theorem errorsHaveExactlyTheListedCauses : Obligations.ErrorsHaveExactlyTheListedCauses := by
  intro s c rest hready
  cases hdec : decode s.cfg c.word with
  | none =>
    exact ⟨_, ⟨.illegal, opc c.word, 0⟩, step_of_decode_eq_none hready hdec, rfl, rfl, by simp, by simp, by simp⟩
  | some i =>
    obtain ⟨t, r, hexec, hresp, hop, herr⟩ := exec_errorOf i (s.accept c rest)
    have hwf : i.wellFormed (s.accept c rest).cfg = true := (encodeOfDecode _ _ _ hdec).2
    refine ⟨t, r, (step_of_decode_eq_some hready hdec).trans hexec, hresp,
      hop.trans (opc_of_decode hdec).symm, ?_, ?_, ?_⟩
    · rw [herr, errorOf_eq_divzero_iff]
      simp
    · rw [herr, errorOf_eq_trunc_iff hwf]
      simp [State.nativeValue_eq, State.limbValue]
    · rw [herr, errorOf_eq_illegal_iff, hwf]
      simp

/-- Settles O7: the words that decode are those that the table spells (O4), and the others are the cause
of ILLEGAL (O19). -/
theorem illegalExactlyWhenNoCommandIsSpelled : Obligations.IllegalExactlyWhenNoCommandIsSpelled := by
  intro s c rest hready
  rw [← decodesExactlyTheTable, ← Option.isSome_iff_exists, Option.not_isSome_iff_eq_none]
  refine ⟨fun hdec => ⟨_, step_of_decode_eq_none hready hdec, State.raise_failed _ _ _⟩, fun hdec => ?_⟩
  obtain ⟨t, r, hstep, hresp, -, -, -, hillegal⟩ := errorsHaveExactlyTheListedCauses s c rest hready
  exact ⟨t, r, hstep, hresp, fun he => Option.isSome_iff_ne_none.1 hdec (hillegal.1 he)⟩

/-- Settles O20: of the ways a command can end, failing is not open to these. -/
theorem overflowIsNoError : Obligations.OverflowIsNoError := by
  intro i s hwf hnofail
  obtain ⟨t, hexec, hends⟩ := exec_ends i s
  refine ⟨t, ?_⟩
  obtain ⟨-, -, hframe, -, hsame⟩ := hends.frame
  cases hends with
  | completes vd x hw => exact ⟨0, hexec, rfl, fun _ => rfl, hframe, hsame⟩
  | returns d hdata => exact ⟨d, hexec, rfl, fun hnone => by simp [hdata] at hnone, hframe, hsame⟩
  | fails e he hcause => simp [hwf, hnofail] at hcause

/-! #### A failed command and the one after it (R190) -/

theorem ends_of_exec {i : Instr} {s t : State} (h : exec i s = .next t) : Ends i s t := by
  obtain ⟨t', ht', hends⟩ := exec_ends i s
  exact Host.Outcome.next.inj (ht'.symm.trans h) ▸ hends

section
variable {i : Instr} {s t : State} {r : Response}

/-- A command answered with an error did nothing but answer. -/
theorem Ends.eq_raise (h : Ends i s t) (hresp : t.responses = s.responses ++ [r]) (herr : r.err ≠ .ok) :
    ∃ e, r = ⟨e, i.opcode, 0⟩ ∧ t = s.raise e i.opcode := by
  cases h with
  | completes vd x hw =>
    obtain rfl : ⟨.ok, i.opcode, 0⟩ = r := by simpa [State.complete_eq] using hresp
    exact absurd rfl herr
  | returns d hdata =>
    obtain rfl : ⟨.ok, i.opcode, d⟩ = r := by simpa [State.respond_eq] using hresp
    exact absurd rfl herr
  | fails e he hcause =>
    obtain rfl : ⟨e, i.opcode, 0⟩ = r := by simpa [State.raise_eq] using hresp
    exact ⟨e, rfl, rfl⟩

/-- A step that answers an error did nothing but take the oldest command and answer. -/
theorem step_eq_raise (h : step s = .next t) (hresp : t.responses = s.responses ++ [r])
    (herr : r.err ≠ .ok) : ∃ c rest e, Ready s c rest ∧ r = ⟨e, opc c.word, 0⟩ ∧
      t = (s.accept c rest).raise e (opc c.word) := by
  obtain ⟨-, ⟨-, rfl⟩ | ⟨-, -, rfl⟩ | ⟨c, rest, hready, -, rfl⟩ | ⟨c, rest, i, hready, hdec, hexec⟩⟩ :=
    step_next_cases h
  · simp at hresp
  · simp at hresp
  · obtain rfl : ⟨.illegal, opc c.word, 0⟩ = r := by simpa [State.raise_eq] using hresp
    exact ⟨c, rest, .illegal, hready, rfl, rfl⟩
  · obtain ⟨e, hr, ht⟩ := (ends_of_exec hexec).eq_raise hresp herr
    rw [← opc_of_decode hdec] at hr ht
    exact ⟨c, rest, e, hready, hr, ht⟩

/-- A register is as before unless it is the destination and the command is answered without an error. -/
theorem Ends.v_eq (h : Ends i s t) (hresp : t.responses = s.responses ++ [r]) {q : VReg}
    (hq : writes i = some q → r.err ≠ .ok) : t.v q = s.v q := by
  obtain ⟨r', hresp', hother, hfail, -⟩ := h.frame
  obtain rfl : r' = r := by simpa [hresp'] using hresp
  by_cases hw : writes i = some q
  · exact hfail (hq hw) q
  · exact hother q hw

end

/-- A command does not read the responses already returned. -/
theorem exec_endAlike (i : Instr) {s u : State} (hcfg : s.cfg = u.cfg) (hdin : s.din = u.din)
    (hregs : s.regs = u.regs) : EndAlike s u (exec i s) (exec i u) := by
  have hv := State.v_eq_of_regs hregs
  obtain ⟨t, t', r, ht, ht', hr, hr', hdest⟩ :=
    resultDependsOnNamedOperandsOnly i s u hcfg hdin fun q _ => hv q
  refine ⟨t, t', r, ht, ht', Vector.ext fun q hq => ?_, hr, hr'⟩
  change t.v ⟨q, hq⟩ = t'.v ⟨q, hq⟩
  by_cases hw : writes i = some ⟨q, hq⟩ ∧ r.err = .ok
  · exact hdest hw.2 _ hw.1
  · rw [not_and] at hw
    rw [(ends_of_exec ht).v_eq hr hw, (ends_of_exec ht').v_eq hr' hw, hv]

/-- The engine of `s`, its registers and the commands it has to answer, after another history: `d` is the
data-in value last presented and `l` are the responses returned. -/
def State.withHistory (s : State) (d : Data) (l : List Response) : State := { s with din := d, responses := l }

theorem step_of_pending_eq_nil {s : State} (hok : s.cfg.ok = true) (hreset : s.resetReq = false)
    (hpending : s.pending = []) : step s = .next s := by
  simp [step, advance, hok, hreset, hpending]

/-- What a step does, and what it answers, does not depend on the history. -/
theorem step_withHistory {s : State} (hok : s.cfg.ok = true) (hreset : s.resetReq = false) (d : Data)
    (l : List Response) : ∃ t u rs, step (s.withHistory d l) = .next t ∧ step s = .next u ∧
      u.regs = t.regs ∧ u.pending = t.pending ∧ t.responses = l ++ rs ∧ u.responses = s.responses ++ rs := by
  cases hpending : s.pending with
  | nil =>
    exact ⟨_, s, [], step_of_pending_eq_nil hok hreset hpending, step_of_pending_eq_nil hok hreset hpending,
      rfl, rfl, l.append_nil.symm, s.responses.append_nil.symm⟩
  | cons c rest =>
    have hready : Ready s c rest := ⟨hok, hreset, hpending⟩
    have hready' : Ready (s.withHistory d l) c rest := ⟨hok, hreset, hpending⟩
    cases hdec : decode s.cfg c.word with
    | none =>
      exact ⟨_, _, _, step_of_decode_eq_none hready' hdec, step_of_decode_eq_none hready hdec,
        rfl, rfl, rfl, rfl⟩
    | some i =>
      rw [step_of_decode_eq_some hready hdec, step_of_decode_eq_some hready' hdec]
      obtain ⟨t, u, r, ht, hu, hregs, hr, hr'⟩ :=
        exec_endAlike i (s := (s.withHistory d l).accept c rest) (u := s.accept c rest) rfl rfl rfl
      obtain ⟨-, -, ht', -⟩ := (ends_of_exec ht).response
      obtain ⟨-, -, hu', -⟩ := (ends_of_exec hu).response
      exact ⟨t, u, [r], ht, hu, hregs.symm, hu'.trans ht'.symm, hr, hr'⟩

/-- Settles O18: the failed command leaves the state without it, with another history. -/
theorem failedCommandLeavesNoTrace : Obligations.FailedCommandLeavesNoTrace := by
  intro s t r hstep hresp herr
  obtain ⟨c, rest, e, ⟨hok, hreset, hpending⟩, rfl, rfl⟩ := step_eq_raise hstep hresp herr
  rw [hpending]
  refine ⟨fun q => ⟨rfl, fun j => rfl⟩, ⟨c, rfl, rfl⟩, rfl, rfl, rfl, rfl, fun t' hnext => ?_⟩
  obtain ⟨t'', u, rs, ht, hu, hregs, hpend, hrt, hru⟩ :=
    step_withHistory (s := { s with pending := rest }) hok hreset c.din (s.responses ++ [⟨e, opc c.word, 0⟩])
  obtain rfl : t'' = t' := Host.Outcome.next.inj (ht.symm.trans hnext)
  exact ⟨u, rs, hu, hregs, hpend, hrt, hru⟩

end Sys2Proof.Machine

/-! ### Reset, hazards and a whole run (70_reset_and_hazards.md R210 to R219) -/

namespace Sys2Proof.Machine

/-! #### The reset event (R210, R211) -/

theorem step_of_resetReq {s : State} (hok : s.cfg.ok = true) (hreset : s.resetReq = true) :
    step s = .next s.applyReset := by
  simp [step, advance, hok, hreset]

/-- Settles O10: the step is the reset event, of which each part is a law of `applyReset`. -/
theorem resetClearsRegisters : Obligations.ResetClearsRegisters := by
  intro s hok hreset
  exact ⟨s.applyReset, step_of_resetReq hok hreset, s.v_applyReset, s.pending_applyReset,
    s.responses_applyReset, s.cfg_applyReset, s.resetReq_applyReset⟩

/-! #### Overlapping registers (R215) -/

/-- A command and the same command with the destination `e` write one value `x`, each to its own
destination, or fail alike: the operands are read before the destination is written. -/
theorem exec_retarget {i j : Instr} {d e : VReg} (hw : writes i = some d)
    (hj : Instr.retarget e i = some j) (s : State) :
    (∃ x, exec i s = .next (s.complete d x i.opcode) ∧ exec j s = .next (s.complete e x i.opcode)) ∨
    (∃ err, err ≠ .ok ∧ exec i s = .next (s.raise err i.opcode) ∧
      exec j s = .next (s.raise err i.opcode)) := by
  cases i with
  | cmp vs1 vs2 | stn vs1 sz | rdl vs1 idx | wrl vd idx => cases hj
  | div vd vs1 vs2 | mod vd vs1 vs2 =>
    cases hw
    cases hj
    simp only [exec, execDiv, execMod]
    split
    · exact .inr ⟨.divzero, by decide, rfl, rfl⟩
    · exact .inl ⟨_, rfl, rfl⟩
  | ldn vd sz =>
    cases hw
    cases hj
    simp only [exec, execLdn]
    split
    · exact .inr ⟨.trunc, by decide, rfl, rfl⟩
    · exact .inl ⟨_, rfl, rfl⟩
  | _ =>
    cases hw
    cases hj
    exact .inl ⟨_, rfl, rfl⟩

/-- Settles O24: both commands complete with one value, or both fail with one error. -/
theorem overlapIsComputeThenReplace : Obligations.OverlapIsComputeThenReplace := by
  intro i j d e s hw hj
  obtain ⟨x, hi, hj⟩ | ⟨err, herr, hi, hj⟩ := exec_retarget hw hj s
  · obtain ⟨hd, hdframe, hdresp, -⟩ := s.complete_wrote d x i.opcode
    obtain ⟨he, heframe, heresp, -⟩ := s.complete_wrote e x i.opcode
    exact ⟨_, _, _, hi, hj, hdresp, heresp, fun _ => ⟨hd.trans he.symm, hdframe, heframe⟩⟩
  · obtain ⟨-, hresp, -⟩ := s.raise_failed err i.opcode
    exact ⟨_, _, _, hi, hj, hresp, hresp, fun hok => absurd hok herr⟩

/-! #### A list of issued commands (R213, R219) -/

theorem runFor_succ_of_step {s t : State} (h : step s = .next t) (k : Nat) :
    runFor (k + 1) s = runFor k t := by
  simp only [runFor, h]

theorem Ends.resetReq_eq {i : Instr} {s t : State} (h : Ends i s t) : t.resetReq = s.resetReq := by
  cases h <;> rfl

/-- No step leaves a reset asked for: it takes the request back, or there was none. -/
theorem step_resetReq {s t : State} (h : step s = .next t) : t.resetReq = false := by
  obtain ⟨-, ⟨-, rfl⟩ | ⟨hreset, -, rfl⟩ | ⟨c, rest, ⟨-, hreset, -⟩, -, rfl⟩ |
    ⟨c, rest, i, ⟨-, hreset, -⟩, -, hexec⟩⟩ := step_next_cases h
  · exact s.resetReq_applyReset
  · exact hreset
  · exact hreset
  · exact (ends_of_exec hexec).resetReq_eq.trans hreset

/-- Settles O9, by induction on the issued commands: the step answers the oldest one (O8) and leaves a
state of the same engine (O16), with no reset asked for and the others to answer. -/
theorem runAnswersAllCommandsInOrder : Obligations.RunAnswersAllCommandsInOrder := by
  intro s hok hreset
  induction hpending : s.pending generalizing s with
  | nil => exact ⟨s, [], rfl, s.responses.append_nil.symm, rfl, hpending⟩
  | cons c rest ih =>
    obtain ⟨t, r, hstep, hresp, hrest, hop, -⟩ :=
      everyCommandIsAnsweredOnce.2 s c rest ⟨hok, hreset, hpending⟩
    have htok : t.cfg.ok = true := step_cfg hstep ▸ hok
    obtain ⟨u, rs, hrun, hresps, hops, hdone⟩ := ih t htok (step_resetReq hstep) hrest
    refine ⟨u, r :: rs, (runFor_succ_of_step hstep _).trans hrun, ?_, by simp [hop, hops], hdone⟩
    rw [hresps, hresp, List.append_assoc, List.singleton_append]

end Sys2Proof.Machine

/-! ### Steps with no command, impossible builds, limb indices of L or more (log 4, log 6, log 8) -/

namespace Sys2Proof.Machine

/-- Settles O11: of the three things that a step can do, only the idle one is left. -/
theorem nothingHappensWithoutACommand : Obligations.NothingHappensWithoutACommand :=
  fun _ hok hreset hpending => step_of_pending_eq_nil hok hreset hpending

/-- The step of an engine that can be built answers a next state: it resets, idles or answers a command. -/
theorem step_next_of_ok {s : State} (hok : s.cfg.ok = true) : ∃ t, step s = .next t := by
  cases hreset : s.resetReq with
  | true => exact ⟨_, step_of_resetReq hok hreset⟩
  | false =>
    cases hpending : s.pending with
    | nil => exact ⟨s, step_of_pending_eq_nil hok hreset hpending⟩
    | cons c rest =>
      obtain ⟨t, -, hstep, -⟩ := everyCommandIsAnsweredOnce.2 s c rest ⟨hok, hreset, hpending⟩
      exact ⟨t, hstep⟩

/-- Settles O12: the bound that the statement writes out is the one that the step tests. -/
theorem onlyImpossibleBuildsAreRefused : Obligations.OnlyImpossibleBuildsAreRefused := by
  intro s
  have hok : s.cfg.ok = true ↔ 1 ≤ s.cfg.N ∧ s.cfg.N ≤ 4096 * s.cfg.limb.bits := s.cfg.ok_iff
  rw [← hok]
  exact ⟨fun hbad => if_neg hbad, step_next_of_ok⟩

/-- Settles O31: a word decodes to well-formed commands only (O3), and the meaning of the term makes the
same check. -/
theorem outOfRangeLimbTermsAnswerIllegal : Obligations.OutOfRangeLimbTermsAnswerIllegal := by
  intro s r idx hidx
  have hbad : decide (idx.val < s.cfg.L) ≠ true := fun h => absurd (of_decide_eq_true h) (Nat.not_lt.2 hidx)
  exact ⟨fun w => ⟨fun hdec => hbad (encodeOfDecode _ _ _ hdec).2, fun hdec => hbad (encodeOfDecode _ _ _ hdec).2⟩,
    ⟨_, if_pos hidx, s.raise_failed .illegal 0x24⟩, ⟨_, if_pos hidx, s.raise_failed .illegal 0x25⟩⟩

end Sys2Proof.Machine

/-! ### Round trips through native values and limbs (40_construct_convert.md section 7) -/

namespace Sys2Proof.Machine

/-- Settles O32: the loaded value is below `2^w` for the width `w` that STN reads, so it is returned whole. -/
theorem nativeRoundTrip : Obligations.NativeRoundTrip := by
  rintro s vd sz x rfl hx
  rw [← s.nativeValue_eq] at hx ⊢
  have hwrote := s.complete_wrote vd (s.nativeValue sz) 0x21
  refine ⟨_, _, _, exec_ldn_of_lt s vd hx, hwrote, rfl, State.respond_answered _ _ _, ?_⟩
  rw [hwrote.1, toNat_zext64_mod (nativeWidth_le sz), State.nativeValue, Nat.mod_mod]

/-- Settles O33: RDL answers the limb of the state that WRL left, by the laws of the limb storage. -/
theorem limbRoundTrip : Obligations.LimbRoundTrip := by
  intro s vd i j hi hj hfits
  have hread {t : State} : Answered t (zext64 (t.memRead vd j)) 0x24 (t.respond 0x24 (zext64 (t.memRead vd j))) :=
    t.respond_answered _ 0x24
  refine ⟨_, _, exec_wrl_of_fits s vd hi hfits, rfl, exec_rdl_of_lt _ vd hj, ?_, fun hne => ?_⟩
  · rintro rfl
    refine ⟨_, hread, ?_⟩
    change (zext64 ((s.memWrite vd j s.limbValue).memRead vd j)).toNat = s.limbValue
    rw [s.memRead_memWrite_same vd j s.limbValue_lt, State.limbValue, toNat_zext64_mod s.cfg.W_le]
  · have hsame : ((s.memWrite vd i s.limbValue).respond 0x25 0).memRead vd j = s.memRead vd j :=
      s.memRead_memWrite_ne vd vd i j s.limbValue_lt fun h => hne (Fin.ext h.2)
    exact ⟨_, _, exec_rdl_of_lt s vd hj, hread, hsame ▸ hread⟩

/-! #### A register built limb by limb -/

/-- The command `WRL vd, i, #x` for limb `i` of the value `a`, as the host issues it. -/
def wrlCommand (c : Config) (vd : VReg) (a i : Nat) : Command :=
  ⟨hexWord 0x25 vd 0 0 i, BitVec.ofNat 64 (a / 2 ^ (c.W * i) % 2 ^ c.W)⟩

/-- The step on such a command writes the limb of a value in range: it is below `2^W`, and in the top limb at
most TOPMASK. -/
theorem step_wrlCommand {s : State} {vd : VReg} {a i : Nat} {rest : List Command} (ha : a < 2 ^ s.cfg.N)
    (hi : i < s.cfg.L) (hready : Ready s (wrlCommand s.cfg vd a i) rest) :
    ∃ t, step s = .next t ∧ t.pending = rest ∧ t.responses = s.responses ++ [⟨.ok, 0x25, 0⟩] ∧
      (∀ q, q ≠ vd → t.v q = s.v q) ∧
      ∀ j, t.memRead vd j = if j = i then a / 2 ^ (s.cfg.W * i) % 2 ^ s.cfg.W else s.memRead vd j := by
  obtain ⟨hN, hmax⟩ := s.cfg.ok_iff.1 hready.1
  have hiFin : i < 4096 := hi.trans_le ((s.cfg.L_le_iff _).2 hmax)
  have hlimb : (wrlCommand s.cfg vd a i).din.toNat % 2 ^ s.cfg.W = a / 2 ^ (s.cfg.W * i) % 2 ^ s.cfg.W :=
    (congrArg (· % 2 ^ s.cfg.W) (toNat_zext64_mod s.cfg.W_le)).trans (Nat.mod_mod _ _)
  have hfits : ¬ (i = s.cfg.L - 1 ∧ s.cfg.topMask < a / 2 ^ (s.cfg.W * i) % 2 ^ s.cfg.W) := by
    rintro ⟨rfl, hwide⟩
    exact Nat.not_le.2 hwide ((Nat.mod_le _ _).trans (topLimb_le_topMask hN ha))
  rw [← hlimb] at hfits
  obtain ⟨hdec, t, hexec, ⟨-, hother, hresp, -, -, hpending, -⟩, hsame, hne⟩ :=
    (wrlReplacesOneLimb (s.accept (wrlCommand s.cfg vd a i) rest) vd ⟨i, hiFin⟩).1 hi hfits
  refine ⟨t, (step_of_decode_eq_some hready hdec).trans hexec, hpending, hresp, hother, fun j => ?_⟩
  split
  next hj => exact hj ▸ hsame.trans hlimb
  next hj => exact hne vd j fun h => hj h.2

/-- A run of such commands writes the limbs it names and no other. -/
theorem runFor_wrlCommands (vd : VReg) (a : Nat) (order : List Nat) (s : State) (hok : s.cfg.ok = true)
    (hreset : s.resetReq = false) (ha : a < 2 ^ s.cfg.N) (horder : ∀ i ∈ order, i < s.cfg.L)
    (hpending : s.pending = order.map (wrlCommand s.cfg vd a)) :
    ∃ (t : State) (rs : List Response), runFor order.length s = .next t ∧ t.cfg = s.cfg ∧ t.pending = [] ∧
      t.responses = s.responses ++ rs ∧ rs.length = order.length ∧ (∀ r ∈ rs, r.err = .ok) ∧
      (∀ q, q ≠ vd → t.v q = s.v q) ∧
      ∀ j, t.memRead vd j = if j ∈ order then a / 2 ^ (s.cfg.W * j) % 2 ^ s.cfg.W else s.memRead vd j := by
  induction order generalizing s with
  | nil => exact ⟨s, [], rfl, rfl, hpending, by simp, rfl, by simp, fun _ _ => rfl, by simp⟩
  | cons i order ih =>
    obtain ⟨hi, horder⟩ := List.forall_mem_cons.1 horder
    obtain ⟨t, hstep, htpend, htresp, htother, htread⟩ := step_wrlCommand ha hi ⟨hok, hreset, hpending⟩
    have hcfg := step_cfg hstep
    obtain ⟨u, rs, hrun, hucfg, hupend, huresp, hlen, hrs, huother, huread⟩ :=
      ih t (hcfg ▸ hok) (step_resetReq hstep) (hcfg ▸ ha) (hcfg ▸ horder) (hcfg ▸ htpend)
    refine ⟨u, ⟨.ok, 0x25, 0⟩ :: rs, (runFor_succ_of_step hstep _).trans hrun, hucfg.trans hcfg, hupend,
      by simp [huresp, htresp], by simp [hlen], List.forall_mem_cons.2 ⟨rfl, hrs⟩,
      fun q hq => (huother q hq).trans (htother q hq), fun j => ?_⟩
    rw [huread, htread, hcfg]
    by_cases hj : j = i
    · simp [hj]
    · simp [hj]

/-- A register is determined by its limbs. -/
theorem State.v_eq_of_memRead {s : State} {r : VReg} {a : Nat}
    (h : ∀ j, s.memRead r j = a / 2 ^ (s.cfg.W * j) % 2 ^ s.cfg.W) : s.v r = a := by
  apply Nat.eq_of_testBit_eq
  intro b
  have hbit := congrArg (·.testBit (b % s.cfg.W)) (h (b / s.cfg.W))
  simpa only [State.memRead, slice_testBit, Nat.mod_lt b (Config.W_pos s.cfg), decide_true, Bool.true_and,
    Nat.div_add_mod] using hbit

/-- Settles O34: ZERO leaves every limb 0, as the limbs of `a` at or above L are, and the run of WRL writes
the limbs below L. -/
theorem anyValueIsBuiltFromLimbs : Obligations.AnyValueIsBuiltFromLimbs := by
  intro s vd a order hok hreset ha hperm hpending
  have horder (i : Nat) : i ∈ order ↔ i < s.cfg.L := hperm.mem_iff.trans List.mem_range
  have hready : Ready s ⟨hexWord 0x20 vd 0 0 0, 0⟩ _ := ⟨hok, hreset, hpending⟩
  obtain ⟨hdec, t, hexec, hzero, hother, hresp, hcfg, -, htpend, -⟩ := zeroClearsItsRegister (s.accept _ _) vd
  have hstep : step s = .next t := (step_of_decode_eq_some hready hdec).trans hexec
  have htcfg := step_cfg hstep
  obtain ⟨u, rs, hrun, hucfg, hupend, huresp, hlen, hrs, huother, huread⟩ :=
    runFor_wrlCommands vd a order t (htcfg ▸ hok) (step_resetReq hstep) (htcfg ▸ ha)
      (fun i hi => htcfg ▸ (horder i).1 hi) (htcfg ▸ htpend)
  refine ⟨u, ⟨.ok, 0x20, 0⟩ :: rs, (runFor_succ_of_step hstep _).trans hrun, State.v_eq_of_memRead fun j => ?_,
    fun q hq => (huother q hq).trans (hother q hq), hupend, ?_, by simp [hlen],
    List.forall_mem_cons.2 ⟨rfl, hrs⟩⟩
  · rw [huread, hucfg]
    split
    next => rfl
    next hj =>
      have hle : s.cfg.N ≤ s.cfg.W * j :=
        Nat.mul_comm j _ ▸ (s.cfg.L_le_iff j).1 (Nat.not_lt.1 fun h => hj ((horder j).2 h))
      rw [htcfg, Nat.div_eq_of_lt (ha.trans_le (Nat.pow_le_pow_right Nat.two_pos hle))]
      simp [State.memRead, hzero]
  · rw [huresp, hresp, State.responses_accept, List.append_assoc, List.singleton_append]

end Sys2Proof.Machine

/-! ### Laws of the wrapping operators (41_addsub.md section 5, 42_mul.md section 4, 43_divmod.md section 5) -/

namespace Sys2Proof.Machine

section
variable {N a b : Nat}

/-- Subtracting is adding the complement in `2^N`. -/
theorem subWrap_eq_add_mod (ha : a < 2 ^ N) (hb : b ≤ 2 ^ N) : subWrap N a b = (a + (2 ^ N - b)) % 2 ^ N := by
  rw [subWrap_eq_ite ha hb]
  split
  next hba =>
    rw [← Nat.add_sub_assoc hb, Nat.sub_add_comm hba, Nat.add_mod_right, Nat.mod_eq_of_lt (by omega)]
  next hba => rw [Nat.mod_eq_of_lt (by omega)]; omega

theorem addWrap_subWrap (ha : a < 2 ^ N) (hb : b ≤ 2 ^ N) : addWrap N (subWrap N a b) b = a := by
  rw [subWrap_eq_add_mod ha hb, addWrap, Nat.mod_add_mod, Nat.add_assoc, Nat.sub_add_cancel hb,
    Nat.add_mod_right, Nat.mod_eq_of_lt ha]

theorem subWrap_addWrap (ha : a < 2 ^ N) (hb : b ≤ 2 ^ N) : subWrap N (addWrap N a b) b = a := by
  rw [subWrap_eq_add_mod (addWrap_lt ..) hb, addWrap, Nat.mod_add_mod, Nat.add_assoc, Nat.add_sub_of_le hb,
    Nat.add_mod_right, Nat.mod_eq_of_lt ha]

theorem addWrap_eq_ite (ha : a < 2 ^ N) (hb : b < 2 ^ N) :
    addWrap N a b = if a + b < 2 ^ N then a + b else a + b - 2 ^ N := by
  rw [addWrap]
  split
  next hlt => exact Nat.mod_eq_of_lt hlt
  next hge => rw [Nat.mod_eq_sub_mod (Nat.not_lt.1 hge), Nat.mod_eq_of_lt (by omega)]

end

/-- Settles O41: each law is one of sums in the naturals, reduced once; 1 is `2^N` when N is 0. -/
theorem addSubLaws : Obligations.AddSubLaws := by
  intro N a b d ha hb hd
  have hone : 1 ≤ 2 ^ N := Nat.one_le_two_pow
  refine ⟨by rw [addWrap, Nat.add_comm, addWrap], ?_, ?_, ?_, addWrap_subWrap ha hb.le, subWrap_addWrap ha hb.le, ?_,
    subWrap_addWrap ha hone, addWrap_subWrap ha hone⟩
  · simp only [addWrap, Nat.mod_add_mod, Nat.add_mod_mod, Nat.add_assoc]
  · rw [addWrap, Nat.sub_add_cancel hone, Nat.mod_self]
  · rw [subWrap_of_lt Nat.one_pos hone]
  · rw [subWrap_eq_add_mod ha hb.le, addWrap, Nat.add_mod_mod]

/-- Settles O44: each law is one of products in the naturals, reduced once. -/
theorem mulLaws : Obligations.MulLaws := by
  intro N a b d k ha hb hd hk
  refine ⟨by rw [mulWrap, Nat.mul_comm, mulWrap], ?_, ?_, ?_⟩
  · simp only [mulWrap, Nat.mod_mul_mod, Nat.mul_mod_mod, Nat.mul_assoc]
  · simp only [mulWrap, addWrap, Nat.mul_mod_mod, Nat.mod_add_mod, Nat.add_mod_mod, Nat.mul_add]
  · rw [mulWrap, shlVal, if_neg (Nat.not_le.2 hk)]

/-- Settles O49: the product and the sum are at most the dividend, so reducing them changes nothing. -/
theorem divisionIdentity : Obligations.DivisionIdentity := by
  intro N a d ha hd hdN
  have hsum : (divmod a d).1 * d + (divmod a d).2 = a := Nat.div_add_mod' a d
  refine ⟨?_, Nat.mod_lt a hd, hsum.trans_lt ha⟩
  rw [addWrap, mulWrap, Nat.mod_add_mod, hsum, Nat.mod_eq_of_lt ha]

/-! #### The order and the wraps (44_compare.md section 4) -/

theorem threeWay_eq_lt_iff (a b : Nat) : threeWay a b = .lt ↔ a < b := by
  rw [threeWay_eq_compare, compare_lt_iff_lt]

theorem threeWay_eq_gt_iff (a b : Nat) : threeWay a b = .gt ↔ b < a := by
  rw [threeWay_eq_compare, compare_gt_iff_gt]

theorem threeWay_eq_eq_iff (a b : Nat) : threeWay a b = .eq ↔ a = b := by
  rw [threeWay_eq_compare, compare_eq_iff_eq]

theorem coe_subWrap_eq_sub_iff {N a b : Nat} (ha : a < 2 ^ N) (hb : b < 2 ^ N) :
    (subWrap N a b : Int) = (a : Int) - b ↔ b ≤ a := by
  rw [subWrap_eq_ite ha hb.le]
  split <;> omega

/-- The sum of two values in range wraps exactly when it is below the first operand. -/
theorem addWrap_ne_add_iff {N a b : Nat} (ha : a < 2 ^ N) (hb : b < 2 ^ N) :
    addWrap N a b ≠ a + b ↔ addWrap N a b < a := by
  rw [addWrap_eq_ite ha hb]
  split <;> omega

/-- Settles O53: the three results are those of the order of the naturals, and a sum wraps alike in both
orders of its operands. -/
theorem comparisonTellsWraps : Obligations.ComparisonTellsWraps := by
  intro N a b ha hb
  simp only [ne_eq, threeWay_eq_lt_iff, threeWay_eq_gt_iff, threeWay_eq_eq_iff, Nat.not_lt]
  have hcomm : addWrap N a b = addWrap N b a := by rw [addWrap, Nat.add_comm, addWrap]
  refine ⟨trivial, eq_comm, fun d => Nat.lt_trans, coe_subWrap_eq_sub_iff ha hb, addWrap_ne_add_iff ha hb, ?_⟩
  rw [hcomm, Nat.add_comm]
  exact addWrap_ne_add_iff hb ha

/-! ### Laws of the bitwise operators and shifts (45_bitwise.md section 5) -/

/-- The sum bit by bit: the bits where the operands differ, and twice those where both are 1. -/
theorem add_eq_xor_add_two_mul_and (a b : Nat) : a + b = (a ^^^ b) + 2 * (a &&& b) := by
  induction a using Nat.binaryRec generalizing b with
  | zero => simp
  | bit p a ih =>
    rw [← Nat.bit_bodd_div2 b, Nat.xor_bit, Nat.land_bit]
    have hdiv := ih b.div2
    cases p <;> cases b.bodd <;> simp only [Nat.bit_val] <;> simp <;> omega

/-- The bits where the operands differ and those where both are 1 are disjoint, so no carry arises. -/
theorem or_eq_xor_add_and (a b : Nat) : a ||| b = (a ^^^ b) + (a &&& b) := by
  have hdisjoint : (a ^^^ b) &&& (a &&& b) = 0 := by
    apply Nat.eq_of_testBit_eq
    intro i
    simp only [Nat.testBit_and, Nat.testBit_xor, Nat.zero_testBit]
    cases a.testBit i <;> cases b.testBit i <;> rfl
  rw [add_eq_xor_add_two_mul_and, hdisjoint, Nat.mul_zero, Nat.add_zero]
  apply Nat.eq_of_testBit_eq
  intro i
  simp only [Nat.testBit_and, Nat.testBit_or, Nat.testBit_xor]
  cases a.testBit i <;> cases b.testBit i <;> rfl

theorem notVal_and {N a b : Nat} (ha : a < 2 ^ N) (hb : b < 2 ^ N) :
    notVal N (a &&& b) = notVal N a ||| notVal N b := by
  apply Nat.eq_of_testBit_eq
  intro i
  rw [testBit_notVal (Nat.and_lt_two_pow a hb), Nat.testBit_or, testBit_notVal ha, testBit_notVal hb,
    Nat.testBit_and, Bool.not_and, Bool.and_or_distrib_left]

theorem notVal_or {N a b : Nat} (ha : a < 2 ^ N) (hb : b < 2 ^ N) :
    notVal N (a ||| b) = notVal N a &&& notVal N b := by
  apply Nat.eq_of_testBit_eq
  intro i
  rw [testBit_notVal (Nat.or_lt_two_pow ha hb), Nat.testBit_and, testBit_notVal ha, testBit_notVal hb,
    Nat.testBit_or, Bool.not_or]
  cases decide (i < N) <;> simp

theorem shrVal_shlVal (N a k : Nat) : shrVal N (shlVal N a k) k = if k < N then a % 2 ^ (N - k) else 0 := by
  apply Nat.eq_of_testBit_eq
  intro i
  rw [testBit_shrVal (shlVal_lt ..), testBit_shlVal]
  split
  next hk =>
    rw [Nat.testBit_mod_two_pow]
    have hpos : i + k < N ↔ i < N - k := by omega
    simp [hpos]
  next hk =>
    have hpos : ¬ i + k < N := by omega
    simp [hpos]

theorem shlVal_shlVal (N a k l : Nat) : shlVal N (shlVal N a k) l = shlVal N a (k + l) := by
  apply Nat.eq_of_testBit_eq
  intro i
  simp only [testBit_shlVal]
  have hle : l ≤ i ∧ k ≤ i - l ↔ k + l ≤ i := by omega
  have hlt : i < N → i - l < N := by omega
  rw [Nat.sub_sub, Nat.add_comm l k]
  by_cases hN : i < N
  · simp [hN, hlt hN, ← hle, Bool.and_assoc]
  · simp [hN]

theorem shrVal_shrVal {N a : Nat} (ha : a < 2 ^ N) (k l : Nat) :
    shrVal N (shrVal N a k) l = shrVal N a (k + l) := by
  apply Nat.eq_of_testBit_eq
  intro i
  rw [testBit_shrVal (shrVal_lt k ha), testBit_shrVal ha, testBit_shrVal ha, Nat.add_assoc, Nat.add_comm l k]

/-- Settles O59: the shifts and the complement bit by bit, the sums by the binary digits. -/
theorem bitwiseLaws : Obligations.BitwiseLaws := by
  intro N a b k l ha hb
  have hnot : notVal N (notVal N a) = a := Nat.sub_sub_self (by omega)
  have hadd : addWrap N a b = addWrap N (a ^^^ b) (2 * (a &&& b)) := by
    rw [addWrap, add_eq_xor_add_two_mul_and, addWrap]
  exact ⟨notVal_and ha hb, notVal_or ha hb, hnot, hadd, or_eq_xor_add_and a b, shrVal_shlVal N a k,
    shlVal_shlVal N a k l, shrVal_shrVal ha k l⟩

end Sys2Proof.Machine

/-! ### Sequences of limbs (00_scope.md R10, 20_memory.md R41) -/

namespace Sys2Proof.Machine

/-- The lowest `n` limbs of a number; `limbs` takes L of them. -/
def lowLimbs (W n x : Nat) : List Nat := (List.range n).map fun i => x / 2 ^ (W * i) % 2 ^ W

/-- `n` limbs of `W` bits. -/
structure IsLimbs (W n : Nat) (l : List Nat) : Prop where
  length_eq : l.length = n
  lt_of_mem : ∀ a ∈ l, a < 2 ^ W

section
variable {W n : Nat}

theorem lowLimbs_succ (W n x : Nat) : lowLimbs W (n + 1) x = x % 2 ^ W :: lowLimbs W n (x / 2 ^ W) := by
  have hdiv (i : Nat) : x / 2 ^ (W * (i + 1)) = x / 2 ^ W / 2 ^ (W * i) := by
    rw [Nat.div_div_eq_div_mul, ← Nat.pow_add, Nat.mul_succ, Nat.add_comm]
  simp [lowLimbs, List.range_succ_eq_map, hdiv]

theorem lowLimbs_isLimbs (W n x : Nat) : IsLimbs W n (lowLimbs W n x) := by
  refine ⟨by simp [lowLimbs], fun a ha => ?_⟩
  obtain ⟨i, -, rfl⟩ := List.mem_map.1 ha
  exact Nat.mod_lt _ (Nat.two_pow_pos W)

theorem take_lowLimbs {m : Nat} (h : m ≤ n) (x : Nat) : (lowLimbs W n x).take m = lowLimbs W m x := by
  rw [lowLimbs, ← List.map_take, List.take_range, Nat.min_eq_left h, lowLimbs]

theorem isLimbs_cons {a : Nat} {l : List Nat} : IsLimbs W (n + 1) (a :: l) ↔ a < 2 ^ W ∧ IsLimbs W n l := by
  constructor
  · rintro ⟨hlen, hlt⟩
    obtain ⟨ha, hl⟩ := List.forall_mem_cons.1 hlt
    exact ⟨ha, Nat.succ.inj hlen, hl⟩
  · rintro ⟨ha, hlen, hl⟩
    exact ⟨congrArg (· + 1) hlen, List.forall_mem_cons.2 ⟨ha, hl⟩⟩

/-- A sequence of limbs is the limbs of the number that it spells. -/
theorem IsLimbs.eq_lowLimbs {l : List Nat} (h : IsLimbs W n l) : l = lowLimbs W n (limbsVal W l) := by
  induction l generalizing n with
  | nil => obtain rfl : 0 = n := h.length_eq; rfl
  | cons a l ih =>
    obtain rfl : l.length + 1 = n := h.length_eq
    obtain ⟨ha, hl⟩ := isLimbs_cons.1 h
    rw [lowLimbs_succ, limbsVal, Nat.add_mul_mod_self_left, Nat.mod_eq_of_lt ha,
      Nat.add_mul_div_left _ _ (Nat.two_pow_pos W), Nat.div_eq_of_lt ha, Nat.zero_add, ← ih hl]

theorem limbsVal_lowLimbs (W n x : Nat) : limbsVal W (lowLimbs W n x) = x % 2 ^ (W * n) :=
  limbsVal_map_range W n x

/-- `n` limbs that spell a number up to a multiple of `2^(W*n)` are its lowest `n` limbs. -/
theorem IsLimbs.eq_lowLimbs_of_mod {l : List Nat} {x : Nat} (h : IsLimbs W n l)
    (hx : limbsVal W l % 2 ^ (W * n) = x % 2 ^ (W * n)) : l = lowLimbs W n x := by
  have hmod (y : Nat) : lowLimbs W n y = lowLimbs W n (y % 2 ^ (W * n)) :=
    limbsVal_lowLimbs W n y ▸ (lowLimbs_isLimbs W n y).eq_lowLimbs
  rw [hmod x, ← hx, ← hmod, ← h.eq_lowLimbs]

end

/-! #### The limbs of a register -/

section
variable {c : Config}

theorem Config.N_le (c : Config) : c.N ≤ c.W * c.L := Nat.mul_comm c.L c.W ▸ (c.L_le_iff c.L).1 le_rfl

theorem lt_two_pow_limbs {x : Nat} (hx : x < 2 ^ c.N) : x < 2 ^ (c.W * c.L) :=
  hx.trans_le (Nat.pow_le_pow_right Nat.two_pos (Config.N_le c))

theorem limbs_isLimbs (c : Config) (x : Nat) : IsLimbs c.W c.L (limbs c x) := lowLimbs_isLimbs c.W c.L x

theorem le_limbMax_iff (c : Config) (x : Nat) : x ≤ c.limbMax ↔ x < 2 ^ c.W :=
  Nat.le_sub_one_iff_lt (Nat.two_pow_pos _)

theorem limbs_zero (c : Config) : limbs c 0 = List.replicate c.L 0 := by
  simp [limbs]

/-- Every limb of a value in range, also those at or above L, which are 0. -/
theorem getD_limbs {x : Nat} (hx : x < 2 ^ c.N) (i : Nat) :
    (limbs c x).getD i 0 = x / 2 ^ (c.W * i) % 2 ^ c.W := by
  by_cases hi : i < c.L
  · simp [limbs, hi]
  · have hle : 2 ^ (c.W * c.L) ≤ 2 ^ (c.W * i) :=
      Nat.pow_le_pow_right Nat.two_pos (Nat.mul_le_mul_left _ (Nat.not_lt.1 hi))
    rw [Nat.div_eq_of_lt ((lt_two_pow_limbs hx).trans_le hle)]
    simp [limbs, hi]

/-- Settles O35: the top limb is the last of the L, and the limbs spell the value. -/
theorem limbsRepresentTheValue : Obligations.LimbsRepresentTheValue := by
  intro c x hok hx
  have hN := (c.ok_iff.1 hok).1
  have hlen := (limbs_isLimbs c x).length_eq
  refine ⟨hlen, fun a ha => (le_limbMax_iff c a).2 ((limbs_isLimbs c x).lt_of_mem a ha), ?_, limbsVal_limbs c hx⟩
  have hlast : (limbs c x).getLastD 0 = (limbs c x).getD (c.L - 1) 0 := by
    rw [List.getLastD_eq_getLast?, List.getLast?_eq_getElem?, hlen, List.getD_eq_getElem?_getD]
  rw [hlast, getD_limbs hx]
  exact (Nat.mod_le _ _).trans (topLimb_le_topMask hN hx)

/-- Masking the top limb takes the value modulo `2^N`. -/
theorem maskTop_limbs (hN : 0 < c.N) (x : Nat) : maskTop c (limbs c x) = limbs c (x % 2 ^ c.N) := by
  refine List.ext_getElem (by simp [maskTop, limbs]) fun i hi _ => ?_
  have hiL : i < c.L := by simpa [maskTop, limbs] using hi
  apply Nat.eq_of_testBit_eq
  intro j
  simp only [maskTop, limbs, List.getElem_modify, List.getElem_map, List.getElem_range]
  rw [slice_testBit, Nat.testBit_mod_two_pow]
  split
  next htop =>
    have hpos : c.W * i + j < c.N ↔ j < c.T := htop ▸ topLimb_bit_lt_iff hN j
    rw [Nat.testBit_and, slice_testBit, Config.topMask, Nat.testBit_two_pow_sub_one, decide_eq_decide.2 hpos,
      Bool.and_assoc, Bool.and_comm (x.testBit _)]
  next hlow =>
    rw [slice_testBit]
    by_cases hj : j < c.W
    · have hpos : c.W * i + j < c.N := lowerLimb_bit_lt hN (by omega) hj
      simp [hpos]
    · simp [hj]

theorem IsLimbs.maskTop {l : List Nat} (hN : 0 < c.N) (h : IsLimbs c.W c.L l) :
    maskTop c l = limbs c (limbsVal c.W l % 2 ^ c.N) := by
  rw [← maskTop_limbs hN]
  exact congrArg _ h.eq_lowLimbs

/-- What leaves the top of L limbs is a multiple of `2^N`. -/
theorem add_mul_two_pow_limbs_mod (c : Config) (x k : Nat) :
    (x + k * 2 ^ (c.W * c.L)) % 2 ^ c.N = x % 2 ^ c.N := by
  obtain ⟨m, hm⟩ := pow_dvd_pow 2 (Config.N_le c)
  rw [hm, Nat.mul_left_comm, Nat.add_mul_mod_self_left]

end

/-! ### The limb-level adder (41_addsub.md R110, R112, R114) -/

section
variable {W : Nat}

theorem rippleCarry_cons (a b : Nat) (as bs : List Nat) (k : Nat) :
    rippleCarry W (a :: as) (b :: bs) k =
      ((a + b + k) % 2 ^ W :: (rippleCarry W as bs ((a + b + k) / 2 ^ W)).1,
        (rippleCarry W as bs ((a + b + k) / 2 ^ W)).2) := rfl

theorem rippleCarry_isLimbs {n : Nat} {as bs : List Nat} (ha : as.length = n) (hb : bs.length = n) (k : Nat) :
    IsLimbs W n (rippleCarry W as bs k).1 := by
  induction n generalizing as bs k with
  | zero =>
    obtain rfl := List.eq_nil_of_length_eq_zero ha
    exact ⟨rfl, by simp [rippleCarry]⟩
  | succ n ih =>
    obtain ⟨a, as, rfl⟩ := List.exists_cons_of_length_eq_add_one ha
    obtain ⟨b, bs, rfl⟩ := List.exists_cons_of_length_eq_add_one hb
    exact isLimbs_cons.2 ⟨Nat.mod_lt _ (Nat.two_pow_pos W), ih (Nat.succ.inj ha) (Nat.succ.inj hb) _⟩

/-- The limbs and the final carry spell the exact sum. -/
theorem limbsVal_rippleCarry {n : Nat} {as bs : List Nat} (ha : as.length = n) (hb : bs.length = n) (k : Nat) :
    limbsVal W (rippleCarry W as bs k).1 + (rippleCarry W as bs k).2 * 2 ^ (W * n) =
      limbsVal W as + limbsVal W bs + k := by
  induction n generalizing as bs k with
  | zero =>
    obtain rfl := List.eq_nil_of_length_eq_zero ha
    obtain rfl := List.eq_nil_of_length_eq_zero hb
    simp [rippleCarry, limbsVal]
  | succ n ih =>
    obtain ⟨a, as, rfl⟩ := List.exists_cons_of_length_eq_add_one ha
    obtain ⟨b, bs, rfl⟩ := List.exists_cons_of_length_eq_add_one hb
    have htail := ih (Nat.succ.inj ha) (Nat.succ.inj hb) ((a + b + k) / 2 ^ W)
    have hstep := Nat.mod_add_div (a + b + k) (2 ^ W)
    rw [rippleCarry_cons]
    simp only [limbsVal]
    rw [Nat.mul_succ, Nat.pow_add]
    linear_combination hstep + 2 ^ W * htail

theorem rippleBorrow_cons (a b : Nat) (as bs : List Nat) (k : Nat) :
    rippleBorrow W (a :: as) (b :: bs) k =
      ((subWithBorrow W a b k).1 :: (rippleBorrow W as bs (subWithBorrow W a b k).2).1,
        (rippleBorrow W as bs (subWithBorrow W a b k).2).2) := rfl

/-- The difference limb and the borrow out spell the exact difference of two limbs and a borrow. -/
theorem subWithBorrow_spec {x y k : Nat} (hx : x < 2 ^ W) (hy : y < 2 ^ W) (hk : k ≤ 1) :
    (subWithBorrow W x y k).1 < 2 ^ W ∧ (subWithBorrow W x y k).2 ≤ 1 ∧
      (subWithBorrow W x y k).1 + y + k = x + (subWithBorrow W x y k).2 * 2 ^ W := by
  simp only [subWithBorrow]
  generalize 2 ^ W = m at *
  split
  next hneg =>
    rw [← Int.add_emod_right, Int.emod_eq_of_lt (by omega) (by omega)]
    omega
  next hnonneg =>
    rw [Int.emod_eq_of_lt (by omega) (by omega)]
    omega

/-- The limbs less the final borrow spell the exact difference. -/
theorem rippleBorrow_spec {n : Nat} {as bs : List Nat} (ha : IsLimbs W n as) (hb : IsLimbs W n bs) {k : Nat}
    (hk : k ≤ 1) : IsLimbs W n (rippleBorrow W as bs k).1 ∧ (rippleBorrow W as bs k).2 ≤ 1 ∧
      limbsVal W (rippleBorrow W as bs k).1 + limbsVal W bs + k =
        limbsVal W as + (rippleBorrow W as bs k).2 * 2 ^ (W * n) := by
  induction n generalizing as bs k with
  | zero =>
    obtain rfl := List.eq_nil_of_length_eq_zero ha.length_eq
    obtain rfl := List.eq_nil_of_length_eq_zero hb.length_eq
    exact ⟨ha, hk, by simp [rippleBorrow, limbsVal]⟩
  | succ n ih =>
    obtain ⟨a, as, rfl⟩ := List.exists_cons_of_length_eq_add_one ha.length_eq
    obtain ⟨b, bs, rfl⟩ := List.exists_cons_of_length_eq_add_one hb.length_eq
    obtain ⟨ha, has⟩ := isLimbs_cons.1 ha
    obtain ⟨hb, hbs⟩ := isLimbs_cons.1 hb
    obtain ⟨hlimb, hborrow, hstep⟩ := subWithBorrow_spec ha hb hk
    obtain ⟨htail, hout, hval⟩ := ih has hbs hborrow
    rw [rippleBorrow_cons]
    refine ⟨isLimbs_cons.2 ⟨hlimb, htail⟩, hout, ?_⟩
    simp only [limbsVal]
    rw [Nat.mul_succ, Nat.pow_add]
    linear_combination hstep + 2 ^ W * hval

end

/-- Settles O39: the sum of two values in range is below `2 * 2^N`, so the carry is at most 1, and masking
drops it with every other multiple of `2^N`. -/
theorem rippleCarryComputesAdd : Obligations.RippleCarryComputesAdd := by
  intro c a b hok ha hb
  have hla := (limbs_isLimbs c a).length_eq
  have hlb := (limbs_isLimbs c b).length_eq
  have hval := limbsVal_rippleCarry (W := c.W) hla hlb 0
  rw [limbsVal_limbs c ha, limbsVal_limbs c hb, Nat.add_zero] at hval
  refine ⟨⟨hval, ?_⟩, ?_⟩
  · have ha' := lt_two_pow_limbs ha
    have hb' := lt_two_pow_limbs hb
    have hcarry : (rippleCarry c.W (limbs c a) (limbs c b) 0).2 * 2 ^ (c.W * c.L) < 2 * 2 ^ (c.W * c.L) := by
      omega
    exact Nat.le_of_lt_succ (Nat.lt_of_mul_lt_mul_right hcarry)
  · rw [addLimbs, (rippleCarry_isLimbs hla hlb 0).maskTop (c.ok_iff.1 hok).1, ← hval, add_mul_two_pow_limbs_mod]

/-- Settles O40: masking drops the borrow with every other multiple of `2^N`. -/
theorem rippleBorrowComputesSub : Obligations.RippleBorrowComputesSub := by
  intro c a b hok ha hb
  obtain ⟨hlimbs, hborrow, hval⟩ := rippleBorrow_spec (limbs_isLimbs c a) (limbs_isLimbs c b) (Nat.zero_le 1)
  rw [limbsVal_limbs c ha, limbsVal_limbs c hb, Nat.add_zero] at hval
  refine ⟨⟨hval, hborrow⟩, ?_⟩
  have hsum : limbsVal c.W (rippleBorrow c.W (limbs c a) (limbs c b) 0).1 + 2 ^ c.N =
      a + (2 ^ c.N - b) + (rippleBorrow c.W (limbs c a) (limbs c b) 0).2 * 2 ^ (c.W * c.L) := by omega
  rw [subLimbs, hlimbs.maskTop (c.ok_iff.1 hok).1, ← Nat.add_mod_right, hsum, add_mul_two_pow_limbs_mod]

end Sys2Proof.Machine

/-! ### The limb-level multiplier (42_mul.md R131, R132) -/

namespace Sys2Proof.Machine

section
variable {W : Nat}

theorem mulRow_cons (x b p : Nat) (bs ps : List Nat) (k : Nat) :
    mulRow W x (b :: bs) (p :: ps) k =
      (x * b + p + k) % 2 ^ W :: mulRow W x bs ps ((x * b + p + k) / 2 ^ W) := rfl

/-- The double-limb product, an intermediate limb and a carry limb fit two limbs, so the carry is a limb. -/
theorem mulRow_carry_lt {x b p k : Nat} (hx : x < 2 ^ W) (hb : b < 2 ^ W) (hp : p < 2 ^ W) (hk : k < 2 ^ W) :
    (x * b + p + k) / 2 ^ W < 2 ^ W := by
  refine Nat.div_lt_of_lt_mul ?_
  generalize 2 ^ W = m at *
  nlinarith

/-- A row adds the product of the limb and the second operand to the limbs of the intermediate that it
covers; its carry limb takes the place of the 0 after them, and the limbs above stay. -/
theorem mulRow_spec {n x : Nat} {bs ps : List Nat} (hx : x < 2 ^ W) (hb : IsLimbs W n bs) (hp : IsLimbs W n ps)
    (zs : List Nat) {k : Nat} (hk : k < 2 ^ W) : ∃ qs, mulRow W x bs (ps ++ 0 :: zs) k = qs ++ zs ∧
      IsLimbs W (n + 1) qs ∧ limbsVal W qs = limbsVal W ps + x * limbsVal W bs + k := by
  induction n generalizing bs ps k with
  | zero =>
    obtain rfl := List.eq_nil_of_length_eq_zero hb.length_eq
    obtain rfl := List.eq_nil_of_length_eq_zero hp.length_eq
    exact ⟨[k], rfl, isLimbs_cons.2 ⟨hk, hb⟩, by simp [limbsVal]⟩
  | succ n ih =>
    obtain ⟨b, bs, rfl⟩ := List.exists_cons_of_length_eq_add_one hb.length_eq
    obtain ⟨p, ps, rfl⟩ := List.exists_cons_of_length_eq_add_one hp.length_eq
    obtain ⟨hb, hbs⟩ := isLimbs_cons.1 hb
    obtain ⟨hp, hps⟩ := isLimbs_cons.1 hp
    obtain ⟨qs, hrow, hqs, hval⟩ := ih hbs hps (mulRow_carry_lt hx hb hp hk)
    have hstep := Nat.mod_add_div (x * b + p + k) (2 ^ W)
    refine ⟨(x * b + p + k) % 2 ^ W :: qs, by rw [List.cons_append, mulRow_cons, hrow, List.cons_append],
      isLimbs_cons.2 ⟨Nat.mod_lt _ (Nat.two_pow_pos W), hqs⟩, ?_⟩
    simp only [limbsVal]
    linear_combination hstep + 2 ^ W * hval

/-- The rows add the product to the intermediate, whose limbs above the first row are 0. -/
theorem mulRows_spec {m n : Nat} {as bs ps : List Nat} (ha : IsLimbs W m as) (hb : IsLimbs W n bs)
    (hp : IsLimbs W n ps) : IsLimbs W (m + n) (mulRows W as bs (ps ++ List.replicate m 0)) ∧
      limbsVal W (mulRows W as bs (ps ++ List.replicate m 0)) =
        limbsVal W ps + limbsVal W as * limbsVal W bs := by
  induction m generalizing as ps with
  | zero =>
    obtain rfl := List.eq_nil_of_length_eq_zero ha.length_eq
    simpa [mulRows, limbsVal] using hp
  | succ m ih =>
    obtain ⟨a, as, rfl⟩ := List.exists_cons_of_length_eq_add_one ha.length_eq
    obtain ⟨ha, has⟩ := isLimbs_cons.1 ha
    obtain ⟨qs, hrow, hqs, hqsVal⟩ := mulRow_spec ha hb hp (List.replicate m 0) (Nat.two_pow_pos W)
    obtain ⟨q, qs, rfl⟩ := List.exists_cons_of_length_eq_add_one hqs.length_eq
    obtain ⟨hq, hqs⟩ := isLimbs_cons.1 hqs
    obtain ⟨htail, hval⟩ := ih has hqs
    have hrows : mulRows W (a :: as) bs (ps ++ List.replicate (m + 1) 0) =
        q :: mulRows W as bs (qs ++ List.replicate m 0) := by
      rw [mulRows, List.replicate_succ, hrow, List.cons_append]
    rw [hrows]
    refine ⟨Nat.succ_add_eq_add_succ m n ▸ isLimbs_cons.2 ⟨hq, htail⟩, ?_⟩
    simp only [limbsVal] at hqsVal ⊢
    linear_combination hqsVal + 2 ^ W * hval

end

/-- Settles O43: the intermediate starts as L zero limbs below L more, and its lowest L limbs are those of the
product. -/
theorem schoolbookComputesMul : Obligations.SchoolbookComputesMul := by
  intro c a b hok ha hb
  have hzero : IsLimbs c.W c.L (List.replicate c.L 0) := limbs_zero c ▸ limbs_isLimbs c 0
  have hzeroVal : limbsVal c.W (List.replicate c.L 0) = 0 := by
    rw [← limbs_zero, limbsVal_limbs c (Nat.two_pow_pos _)]
  obtain ⟨hlimbs, hval⟩ := mulRows_spec (limbs_isLimbs c a) (limbs_isLimbs c b) hzero
  rw [List.replicate_append_replicate, ← Nat.two_mul] at hlimbs hval
  rw [hzeroVal, limbsVal_limbs c ha, limbsVal_limbs c hb, Nat.zero_add] at hval
  refine ⟨hval, hlimbs.length_eq, fun p hp => (le_limbMax_iff c p).2 (hlimbs.lt_of_mem p hp), ?_⟩
  have htake : (mulIntermediate c (limbs c a) (limbs c b)).take c.L = limbs c (a * b) := by
    rw [mulIntermediate, hlimbs.eq_lowLimbs, hval, take_lowLimbs (by omega)]
    rfl
  rw [mulLimbs, htake, maskTop_limbs (c.ok_iff.1 hok).1]

/-! ### The limb comparator (44_compare.md R156) -/

/-- A lower limb decides only where all limbs above it are equal. -/
theorem compareFromTop_concat {as bs : List Nat} (h : as.length = bs.length) (a b : Nat) :
    compareFromTop (as ++ [a]) (bs ++ [b]) = (compareFromTop as bs).then (compare a b) := by
  induction as generalizing bs with
  | nil =>
    obtain rfl := List.eq_nil_of_length_eq_zero h.symm
    simp only [List.nil_append, compareFromTop, Nat.compare_eq_ite_lt]
    rfl
  | cons a' as ih =>
    obtain ⟨b', bs, rfl⟩ := List.exists_cons_of_length_eq_add_one h.symm
    simp only [List.cons_append, compareFromTop, ih (Nat.succ.inj h)]
    split
    · rfl
    · split <;> rfl

/-- Two numbers of which the lowest limb is split off are ordered by the rest first. -/
theorem compare_limb_add (x y : Nat) {m a b : Nat} (ha : a < m) (hb : b < m) :
    compare (a + m * x) (b + m * y) = (compare x y).then (compare a b) := by
  rcases Nat.lt_trichotomy x y with h | rfl | h
  · have hmul := Nat.mul_le_mul_left m (Nat.succ_le_of_lt h)
    rw [Nat.mul_succ] at hmul
    rw [compare_lt_iff_lt.2 h, compare_lt_iff_lt.2 (by omega)]
    rfl
  · rw [compare_eq_iff_eq.2 (rfl : x = x)]
    simp only [Ordering.then, Nat.compare_eq_ite_lt, Nat.add_lt_add_iff_right]
  · have hmul := Nat.mul_le_mul_left m (Nat.succ_le_of_lt h)
    rw [Nat.mul_succ] at hmul
    rw [compare_gt_iff_gt.2 h, compare_gt_iff_gt.2 (by omega)]
    rfl

theorem compareLimbs_eq_compare {W n : Nat} {as bs : List Nat} (ha : IsLimbs W n as) (hb : IsLimbs W n bs) :
    compareLimbs as bs = compare (limbsVal W as) (limbsVal W bs) := by
  induction n generalizing as bs with
  | zero =>
    obtain rfl := List.eq_nil_of_length_eq_zero ha.length_eq
    obtain rfl := List.eq_nil_of_length_eq_zero hb.length_eq
    rfl
  | succ n ih =>
    obtain ⟨a, as, rfl⟩ := List.exists_cons_of_length_eq_add_one ha.length_eq
    obtain ⟨b, bs, rfl⟩ := List.exists_cons_of_length_eq_add_one hb.length_eq
    obtain ⟨ha, has⟩ := isLimbs_cons.1 ha
    obtain ⟨hb, hbs⟩ := isLimbs_cons.1 hb
    have hlen : as.reverse.length = bs.reverse.length := by simp [has.length_eq, hbs.length_eq]
    rw [limbsVal, limbsVal, compare_limb_add _ _ ha hb, ← ih has hbs, compareLimbs, List.reverse_cons,
      List.reverse_cons, compareFromTop_concat hlen, compareLimbs]

theorem compareLimbs_limbs {c : Config} {a b : Nat} (ha : a < 2 ^ c.N) (hb : b < 2 ^ c.N) :
    compareLimbs (limbs c a) (limbs c b) = compare a b := by
  rw [compareLimbs_eq_compare (limbs_isLimbs c a) (limbs_isLimbs c b), limbsVal_limbs c ha, limbsVal_limbs c hb]

/-- Settles O52: the limb comparator is the comparison of the values. -/
theorem limbComparatorComputesCmp : Obligations.LimbComparatorComputesCmp := by
  intro c a b _ ha hb
  rw [compareLimbs_limbs ha hb]
  exact ⟨compare_eq_iff_eq, compare_lt_iff_lt, compare_gt_iff_gt⟩

end Sys2Proof.Machine

/-! ### Long division (43_divmod.md R142, R145, R146) -/

namespace Sys2Proof.Machine

/-! #### Bit at a time -/

/-- What the loop of R142 holds after the iteration for bit `i`: the remainder of `a div 2^i`, the part
of the dividend taken in, and its quotient at the bits from `i` up. -/
def divPrefix (a d i : Nat) : Nat × Nat := (a / 2 ^ i / d * 2 ^ i, a / 2 ^ i % d)

@[simp] theorem divPrefix_zero (a d : Nat) : divPrefix a d 0 = (a / d, a % d) := by simp [divPrefix]

/-- No bit of a value in range is at or above position N. -/
theorem divPrefix_of_lt {N a : Nat} (d : Nat) (ha : a < 2 ^ N) : divPrefix a d N = (0, 0) := by
  simp [divPrefix, Nat.div_eq_of_lt ha]

section
variable (a : Nat) {d : Nat} (hd : 0 < d)
include hd

theorem divStep_divPrefix (i : Nat) : divStep a d i (divPrefix a d (i + 1)) = divPrefix a d i :=
  divStep_prefix a i hd

theorem divBits_divPrefix (lo n : Nat) : divBits a d lo n (divPrefix a d (lo + n)) = divPrefix a d lo := by
  induction n with
  | zero => rfl
  | succ n ih => rw [divBits, ← Nat.add_assoc, divStep_divPrefix a hd, ih]

/-- The loop from (0, 0) over the bits from `i` up. -/
theorem divBits_eq_divPrefix {N i : Nat} (ha : a < 2 ^ N) (hi : i ≤ N) :
    divBits a d i (N - i) (0, 0) = divPrefix a d i := by
  have h := divBits_divPrefix a hd i (N - i)
  rwa [Nat.add_sub_of_le hi, divPrefix_of_lt d ha] at h

end

/-- The trial remainder is at most the part of the dividend taken in (R145). -/
theorem trialRemainder_le (a d i : Nat) : trialRemainder a i (divPrefix a d (i + 1)).2 ≤ a / 2 ^ i := by
  have hprefix : a / 2 ^ (i + 1) = a / 2 ^ i / 2 := by rw [Nat.pow_succ, Nat.div_div_eq_div_mul]
  have hrem : a / 2 ^ (i + 1) % d ≤ a / 2 ^ (i + 1) := Nat.mod_le _ _
  rw [trialRemainder, divPrefix]
  omega

/-- Settles O47: the loop from (0, 0) holds the quotient and remainder of `a div 2^i` for each `i` in
turn, and at bit 0 this is the dividend. -/
theorem longDivisionComputesDivMod : Obligations.LongDivisionComputesDivMod := by
  intro N a d ha hd _
  refine ⟨?_, fun i hi => divBits_eq_divPrefix a hd ha hi, fun i hi => ?_⟩
  · rw [← divPrefix_zero]
    exact divBits_eq_divPrefix a hd ha N.zero_le
  · have htrial := trialRemainder_le a d i
    rw [divBits_eq_divPrefix a hd ha hi, divBits_eq_divPrefix a hd ha hi.le, ← divPrefix_zero]
    refine ⟨Nat.mod_le _ _, htrial, htrial.trans_lt ((Nat.div_le_self _ _).trans_lt ha),
      (divStep_divPrefix a hd i).symm, ?_⟩
    have hloop := divBits_divPrefix a hd 0 (i + 1)
    rwa [Nat.zero_add] at hloop

/-! #### Over limbs -/

/-- One iteration of the loop over limbs. -/
def divLimbsStep (W : Nat) (al dl : List Nat) (i : Nat) (qr : List Nat × List Nat) : List Nat × List Nat :=
  let rl' := (shiftIn W qr.2 (al.getD (i / W) 0 / 2 ^ (i % W) % 2)).1
  if compareLimbs rl' dl ≠ .lt then
    (qr.1.modify (i / W) (· + 2 ^ (i % W)), (rippleBorrow W rl' dl 0).1)
  else (qr.1, rl')

theorem divLimbsLoop_succ (W : Nat) (al dl : List Nat) (i : Nat) (qr : List Nat × List Nat) :
    divLimbsLoop W al dl (i + 1) qr = divLimbsLoop W al dl i (divLimbsStep W al dl i qr) := rfl

/-- Shifting the limbs of a number left by one, a bit entering at the bottom. -/
theorem shiftIn_lowLimbs (W n x b : Nat) : (shiftIn W (lowLimbs W n x) b).1 = lowLimbs W n (2 * x + b) := by
  induction n generalizing x b with
  | zero => rfl
  | succ n ih =>
    have hsplit : 2 * x + b = 2 * (x % 2 ^ W) + b + 2 ^ W * (2 * (x / 2 ^ W)) := by
      have h := Nat.mod_add_div x (2 ^ W)
      rw [Nat.mul_left_comm]
      omega
    rw [lowLimbs_succ, lowLimbs_succ, hsplit, Nat.add_mul_mod_self_left,
      Nat.add_mul_div_left _ _ (Nat.two_pow_pos W), Nat.add_comm _ (2 * (x / 2 ^ W)), ← ih]
    rfl

/-- Adding `2^k` sets bit `k` of a number that has no bit at or below it. -/
theorem testBit_add_two_pow {x k : Nat} (h : 2 ^ (k + 1) ∣ x) (j : Nat) :
    (x + 2 ^ k).testBit j = (x.testBit j || decide (k = j)) := by
  obtain ⟨m, rfl⟩ := h
  rw [Nat.two_pow_add_eq_or_of_lt (Nat.pow_lt_pow_right Nat.one_lt_two (Nat.lt_succ_self k)),
    Nat.testBit_or, Nat.testBit_two_pow]

section
variable {c : Config}

/-- Setting the quotient bit `i` in its limb sets it in the quotient. -/
theorem limbs_add_two_pow {i q : Nat} (hq : 2 ^ (i + 1) ∣ q) :
    (limbs c q).modify (i / c.W) (· + 2 ^ (i % c.W)) = limbs c (q + 2 ^ i) := by
  have hW := Config.W_pos c
  have hi : c.W * (i / c.W) + i % c.W = i := Nat.div_add_mod i c.W
  have hk : i % c.W + 1 ≤ c.W := Nat.mod_lt i hW
  refine List.ext_getElem (by simp [limbs]) fun m hm _ => ?_
  apply Nat.eq_of_testBit_eq
  intro j
  simp only [List.getElem_modify, limbs, List.getElem_map, List.getElem_range]
  rw [slice_testBit, testBit_add_two_pow hq]
  split
  next hlimb =>
    subst hlimb
    have hdvd : 2 ^ (i % c.W + 1) ∣ q / 2 ^ (c.W * (i / c.W)) % 2 ^ c.W := by
      refine (Nat.dvd_mod_iff (pow_dvd_pow 2 hk)).2 (Nat.dvd_div_of_mul_dvd ?_)
      rwa [← Nat.pow_add, ← Nat.add_assoc, hi]
    have hbit : decide (i % c.W = j) = decide (i = c.W * (i / c.W) + j) := decide_eq_decide.2 (by omega)
    rw [testBit_add_two_pow hdvd, slice_testBit, Bool.and_or_distrib_left, hbit]
    by_cases hj : j < c.W
    · simp [hj]
    · have : ¬ i = c.W * (i / c.W) + j := by omega
      simp [hj, this]
  next hlimb =>
    rw [slice_testBit]
    by_cases hj : j < c.W
    · have : ¬ i = c.W * m + j := fun h => hlimb (by rw [h, Nat.mul_add_div hW, Nat.div_eq_of_lt hj, Nat.add_zero])
      simp [this]
    · simp [hj]

/-- The bit of the dividend that an iteration brings in. -/
theorem limbs_bit {a : Nat} (ha : a < 2 ^ c.N) (i : Nat) :
    (limbs c a).getD (i / c.W) 0 / 2 ^ (i % c.W) % 2 = a / 2 ^ i % 2 := by
  rw [getD_limbs ha, ← Nat.toNat_testBit, ← Nat.toNat_testBit, slice_testBit, Nat.div_add_mod,
    decide_eq_true (Nat.mod_lt i (Config.W_pos c)), Bool.true_and]

/-- Where nothing is borrowed, the subtractor gives the limbs of the difference. -/
theorem rippleBorrow_limbs {a b : Nat} (ha : a < 2 ^ c.N) (hba : b ≤ a) :
    (rippleBorrow c.W (limbs c a) (limbs c b) 0).1 = limbs c (a - b) := by
  obtain ⟨hlimbs, -, hval⟩ := rippleBorrow_spec (limbs_isLimbs c a) (limbs_isLimbs c b) (Nat.zero_le 1)
  rw [limbsVal_limbs c ha, limbsVal_limbs c (hba.trans_lt ha)] at hval
  refine hlimbs.eq_lowLimbs_of_mod ?_
  have hdiff : limbsVal c.W (rippleBorrow c.W (limbs c a) (limbs c b) 0).1 =
      a - b + (rippleBorrow c.W (limbs c a) (limbs c b) 0).2 * 2 ^ (c.W * c.L) := by omega
  rw [hdiff, Nat.add_mul_mod_self_right]

/-- The iteration over limbs is the iteration on the values, as long as the trial remainder fits N bits and
the quotient has no bit at or below the one it may set. -/
theorem divLimbsStep_limbs {a d i : Nat} {qr : Nat × Nat} (ha : a < 2 ^ c.N) (hd : d < 2 ^ c.N)
    (hq : 2 ^ (i + 1) ∣ qr.1) (htrial : trialRemainder a i qr.2 < 2 ^ c.N) :
    divLimbsStep c.W (limbs c a) (limbs c d) i (Prod.map (limbs c) (limbs c) qr) =
      Prod.map (limbs c) (limbs c) (divStep a d i qr) := by
  have hshift : (shiftIn c.W (limbs c qr.2) (a / 2 ^ i % 2)).1 = limbs c (trialRemainder a i qr.2) :=
    shiftIn_lowLimbs c.W c.L qr.2 (a / 2 ^ i % 2)
  simp only [divLimbsStep, divStep, Prod.map_fst, Prod.map_snd, limbs_bit ha, hshift,
    compareLimbs_limbs htrial hd, ne_eq, compare_lt_iff_lt, Nat.not_lt, ge_iff_le]
  split
  next hfits => rw [limbs_add_two_pow hq, rippleBorrow_limbs htrial hfits, Prod.map_apply]
  next => rfl

theorem divLimbsLoop_divPrefix {a d i : Nat} (ha : a < 2 ^ c.N) (hd : 0 < d) (hdN : d < 2 ^ c.N) :
    divLimbsLoop c.W (limbs c a) (limbs c d) i (Prod.map (limbs c) (limbs c) (divPrefix a d i)) =
      Prod.map (limbs c) (limbs c) (divPrefix a d 0) := by
  induction i with
  | zero => rfl
  | succ i ih =>
    have htrial := (trialRemainder_le a d i).trans_lt ((Nat.div_le_self _ _).trans_lt ha)
    have hq : 2 ^ (i + 1) ∣ (divPrefix a d (i + 1)).1 := Nat.dvd_mul_left _ _
    rw [divLimbsLoop_succ, divLimbsStep_limbs ha hdN hq htrial, divStep_divPrefix a hd, ih]

end

/-- Settles O48: the loop over limbs runs as the loop on the values, which ends with those of the
dividend. -/
theorem limbDivisionComputesDivMod : Obligations.LimbDivisionComputesDivMod := by
  intro c a d _ ha hd hdN
  have hloop := divLimbsLoop_divPrefix (i := c.N) ha hd hdN
  rw [divPrefix_of_lt d ha, divPrefix_zero] at hloop
  simpa only [Prod.map_apply, limbs_zero, divLimbs] using hloop

/-! ### The limb-level shifts (45_bitwise.md R178) -/

/-- A limb of a number shifted right by `b` bits is put together from the two limbs it straddles. -/
theorem div_two_pow_mod_eq_straddle (y : Nat) {b W : Nat} (hb : b ≤ W) :
    y / 2 ^ b % 2 ^ W = y % 2 ^ W / 2 ^ b + y / 2 ^ W % 2 ^ W * 2 ^ (W - b) % 2 ^ W := by
  have hW : 2 ^ W = 2 ^ b * 2 ^ (W - b) := by rw [← Nat.pow_add, Nat.add_sub_of_le hb]
  rw [Nat.mod_mul_mod, hW, Nat.mod_mul_right_div_self, Nat.mul_mod_mul_right, Nat.mul_comm (2 ^ b),
    Nat.mod_mul, Nat.div_div_eq_div_mul, Nat.mul_comm (2 ^ b), Nat.mul_comm (2 ^ (W - b)) (_ % _)]

section
variable {c : Config} {a : Nat} (ha : a < 2 ^ c.N)
include ha

theorem limbAt_natCast (m : Nat) : limbAt (limbs c a) m = a / 2 ^ (c.W * m) % 2 ^ c.W := by
  rw [limbAt, if_neg (by omega), Int.toNat_natCast, getD_limbs ha]

/-- A limb `j` places below is that of the number shifted left by `j` limbs. -/
theorem limbAt_sub (m j : Nat) :
    limbAt (limbs c a) ((m : Int) - j) = a * 2 ^ (c.W * j) / 2 ^ (c.W * m) % 2 ^ c.W := by
  by_cases hjm : j ≤ m
  · obtain ⟨n, rfl⟩ := Nat.exists_eq_add_of_le hjm
    have hindex : ((j + n : Nat) : Int) - j = n := by omega
    rw [hindex, limbAt_natCast ha, Nat.mul_add, Nat.pow_add, Nat.mul_comm (2 ^ (c.W * j)) (2 ^ _),
      Nat.mul_div_mul_right _ _ (Nat.two_pow_pos _)]
  · obtain ⟨n, rfl⟩ := Nat.exists_eq_add_of_lt (Nat.not_le.1 hjm)
    have hsplit : a * 2 ^ (c.W * (m + n + 1)) = a * 2 ^ (c.W * n) * 2 ^ c.W * 2 ^ (c.W * m) := by
      simp only [Nat.mul_assoc, ← Nat.pow_add]
      congr 2
      ring
    rw [limbAt, if_pos (by omega), hsplit, Nat.mul_div_cancel _ (Nat.two_pow_pos _), Nat.mul_mod_left]

/-- An amount of whole limbs needs no case of its own: the upper of the two limbs then adds nothing. -/
theorem shrLimbs_limbs (k : Nat) : shrLimbs c (limbs c a) k = limbs c (a / 2 ^ k) := by
  refine List.map_congr_left fun m _ => ?_
  have hb : k % c.W ≤ c.W := (Nat.mod_lt k (Config.W_pos c)).le
  have hlow : ((m : Int) + (k / c.W : Nat)) = (m + k / c.W : Nat) := rfl
  have hhigh : (((m + k / c.W : Nat) : Int) + 1) = (m + k / c.W + 1 : Nat) := rfl
  have hwhole (x : Nat) : (if k % c.W = 0 then 0 else x * 2 ^ (c.W - k % c.W) % 2 ^ c.W) =
      x * 2 ^ (c.W - k % c.W) % 2 ^ c.W := by
    split
    next h => rw [h, Nat.sub_zero, Nat.mul_mod_left]
    next => rfl
  have hnext : a / 2 ^ (c.W * (m + k / c.W)) / 2 ^ c.W = a / 2 ^ (c.W * (m + k / c.W + 1)) := by
    rw [Nat.div_div_eq_div_mul, ← Nat.pow_add, ← Nat.mul_succ]
  have hvalue : a / 2 ^ k / 2 ^ (c.W * m) = a / 2 ^ (c.W * (m + k / c.W)) / 2 ^ (k % c.W) := by
    rw [Nat.div_div_eq_div_mul, Nat.div_div_eq_div_mul, ← Nat.pow_add, ← Nat.pow_add, Nat.mul_add, Nat.add_assoc,
      Nat.div_add_mod, Nat.add_comm]
  rw [hwhole, hlow, hhigh, limbAt_natCast ha, limbAt_natCast ha, hvalue, div_two_pow_mod_eq_straddle _ hb, hnext]

/-- The shift left before masking; for an amount of whole limbs the lower of the two limbs, which has W bits,
adds nothing. -/
theorem shlLimbs_limbs (k : Nat) : shlLimbs c (limbs c a) k = maskTop c (limbs c (a * 2 ^ k)) := by
  refine congrArg (maskTop c) (List.map_congr_left fun m _ => ?_)
  have hb : k % c.W ≤ c.W := (Nat.mod_lt k (Config.W_pos c)).le
  have hbelow : ((m : Int) - (k / c.W : Nat) - 1) = m - (k / c.W + 1 : Nat) := by omega
  have hwhole (x : Nat) : (if k % c.W = 0 then 0 else x % 2 ^ c.W / 2 ^ (c.W - k % c.W)) =
      x % 2 ^ c.W / 2 ^ (c.W - k % c.W) := by
    split
    next h => rw [h, Nat.sub_zero, Nat.div_eq_of_lt (Nat.mod_lt _ (Nat.two_pow_pos _))]
    next => rfl
  have hnext : a * 2 ^ (c.W * (k / c.W)) / 2 ^ (c.W * m) =
      a * 2 ^ (c.W * (k / c.W + 1)) / 2 ^ (c.W * m) / 2 ^ c.W := by
    rw [Nat.div_right_comm, Nat.mul_succ, Nat.pow_add, ← Nat.mul_assoc, Nat.mul_div_cancel _ (Nat.two_pow_pos _)]
  have hvalue : a * 2 ^ k / 2 ^ (c.W * m) =
      a * 2 ^ (c.W * (k / c.W + 1)) / 2 ^ (c.W * m) / 2 ^ (c.W - k % c.W) := by
    have hamount : c.W * (k / c.W + 1) = k + (c.W - k % c.W) := by
      have := Nat.div_add_mod k c.W
      rw [Nat.mul_succ]
      omega
    rw [Nat.div_right_comm, hamount, Nat.pow_add, ← Nat.mul_assoc, Nat.mul_div_cancel _ (Nat.two_pow_pos _)]
  rw [hbelow, limbAt_sub ha, limbAt_sub ha, hwhole, hvalue, div_two_pow_mod_eq_straddle _ (Nat.sub_le _ _), ← hnext,
    Nat.sub_sub_self hb, Nat.add_comm]

end

/-- Settles O58: limb by limb, the two source limbs are those that the limb of the shifted number straddles. -/
theorem limbShiftsComputeShifts : Obligations.LimbShiftsComputeShifts := by
  intro c a k hok ha _
  rw [shlLimbs_limbs ha, maskTop_limbs (c.ok_iff.1 hok).1]
  exact ⟨rfl, shrLimbs_limbs ha k⟩

end Sys2Proof.Machine
